-- ==== Sys2Proof/Word.lean ====
section
/-! DEFINITION. The words and byte arrays of the engine (00_scope.md R10, R11; 10_state.md R20). -/

namespace Sys2Proof

/-- A byte, an unsigned integer 0..255 (R11). -/
abbrev Byte := BitVec 8

/-- A register value or command word, 32 bits with bit 0 the least significant (R10). -/
abbrev Word := BitVec 32

/-- A cipher block and the value register `V[0..15]`, `outlen` = 16 bytes, index 0 first (R6, R142). -/
abbrev Block := Vector Byte 16

/-- The legacy permutation table `S[0..255]` (R41). -/
abbrev Table := Vector Byte 256

/-- The key register `KEY[0..31]` (R42). -/
abbrev KeyReg := Vector Byte 32

end Sys2Proof
end

