-- ==== Sys2Proof/Bus.lean ====
section
/-! DEFINITION. What the host can do to the engine (00_scope.md R14, R16; 70_reset_and_hazards.md R271). -/

namespace Sys2Proof

/-- One host action (R16). `width` is the number of bytes the access moves and `offset` its place in the register
window. R66 admits only width 4 and an aligned offset; the other accesses can be written down here so that the model
can refuse them by name. -/
inductive BusAction where
  /-- `BusRead(offset)` when `width` is 4 (R14). -/
  | read (width offset : Nat)
  /-- `BusWrite(offset, value)` when `width` is 4 (R14). -/
  | write (width offset : Nat) (value : Word)
  /-- The hardware reset event (R271). -/
  | reset
deriving DecidableEq, Repr

end Sys2Proof
end

