-- ==== Sys2Proof/Syntax.lean ====
section
/-! DEFINITION. The engine's instructions: one constructor per row of spec/opcode_table.json, with the row's operand
fields as it gives them. A command constructor carries ALL 28 operand bits of its word, the ones that must be 0 too,
because a word with a bad operand is still that command and has an effect of its own: it records ILLEGAL_OPERAND
(30_encoding.md R100, 44_commands_control.md R227; notes/assumptions/14.md). -/

namespace Sys2Proof

/-- The rows of spec/opcode_table.json. -/
inductive Instr where
  /-- NOP, format Z (R171). -/
  | nop (operand : BitVec 28)
  /-- SELECT `v = w[2:0]`, with `w[27:3]`, format VAR (R172). -/
  | select (v : BitVec 3) (rest : BitVec 25)
  /-- SEED_CLEAR, format Z (R173). -/
  | seedClear (operand : BitVec 28)
  /-- SEED_BYTE `b = w[7:0]`, with `w[27:8]`, format B8 (R174). -/
  | seedByte (b : Byte) (rest : BitVec 20)
  /-- SEED, format Z (R175). -/
  | seed (operand : BitVec 28)
  /-- PRODUCE `n = w[23:0]`, with `w[27:24]`, format N24 (R190). -/
  | produce (n : BitVec 24) (rest : BitVec 4)
  /-- DISCARD, format Z (R191). -/
  | discard (operand : BitVec 28)
  /-- CLEAR_ERR, format Z (R220). -/
  | clearErr (operand : BitVec 28)
  /-- SOFT_RESET, format Z (R221). -/
  | softReset (operand : BitVec 28)
  /-- A word with the reserved opcode 0x7 (R99). -/
  | reserved7 (operand : BitVec 28)
  /-- A word with the reserved opcode 0x8 (R99). -/
  | reserved8 (operand : BitVec 28)
  /-- A word with the reserved opcode 0x9 (R99). -/
  | reserved9 (operand : BitVec 28)
  /-- A word with the reserved opcode 0xA (R99). -/
  | reservedA (operand : BitVec 28)
  /-- A word with the reserved opcode 0xB (R99). -/
  | reservedB (operand : BitVec 28)
  /-- A word with the reserved opcode 0xC (R99). -/
  | reservedC (operand : BitVec 28)
  /-- A word with the reserved opcode 0xD (R99). -/
  | reservedD (operand : BitVec 28)
  /-- `BusRead(0x00)` (R205). -/
  | rdId
  /-- `BusWrite(0x04, w)`: any word written to CMD (R225). -/
  | wrCmd (w : Word)
  /-- `BusRead(0x04)` (R209). -/
  | rdCmd
  /-- `BusRead(0x08)` (R204). -/
  | rdStatus
  /-- `BusRead(0x0C)` (R203). -/
  | rdOut
  /-- `BusRead(0x10)` (R206). -/
  | rdOutcnt
  /-- `BusRead(0x14)` (R207). -/
  | rdSeedlen
  /-- `BusRead(0x18)` (R208). -/
  | rdRemain
  /-- A read of the reserved offset 0x1C (R209). -/
  | rdReserved1C
  /-- A read of the reserved offset 0x20 (R209). -/
  | rdReserved20
  /-- A read of the reserved offset 0x24 (R209). -/
  | rdReserved24
  /-- A read of the reserved offset 0x28 (R209). -/
  | rdReserved28
  /-- A read of the reserved offset 0x2C (R209). -/
  | rdReserved2C
  /-- A read of the reserved offset 0x30 (R209). -/
  | rdReserved30
  /-- A read of the reserved offset 0x34 (R209). -/
  | rdReserved34
  /-- A read of the reserved offset 0x38 (R209). -/
  | rdReserved38
  /-- A read of the reserved offset 0x3C (R209). -/
  | rdReserved3C
  /-- A write of the read-only register ID (R210). -/
  | wrId (value : Word)
  /-- A write of the read-only register STATUS (R210). -/
  | wrStatus (value : Word)
  /-- A write of the read-only register OUT (R210). -/
  | wrOut (value : Word)
  /-- A write of the read-only register OUTCNT (R210). -/
  | wrOutcnt (value : Word)
  /-- A write of the read-only register SEEDLEN (R210). -/
  | wrSeedlen (value : Word)
  /-- A write of the read-only register REMAIN (R210). -/
  | wrRemain (value : Word)
  /-- A write of the reserved offset 0x1C (R210). -/
  | wrReserved1C (value : Word)
  /-- A write of the reserved offset 0x20 (R210). -/
  | wrReserved20 (value : Word)
  /-- A write of the reserved offset 0x24 (R210). -/
  | wrReserved24 (value : Word)
  /-- A write of the reserved offset 0x28 (R210). -/
  | wrReserved28 (value : Word)
  /-- A write of the reserved offset 0x2C (R210). -/
  | wrReserved2C (value : Word)
  /-- A write of the reserved offset 0x30 (R210). -/
  | wrReserved30 (value : Word)
  /-- A write of the reserved offset 0x34 (R210). -/
  | wrReserved34 (value : Word)
  /-- A write of the reserved offset 0x38 (R210). -/
  | wrReserved38 (value : Word)
  /-- A write of the reserved offset 0x3C (R210). -/
  | wrReserved3C (value : Word)
  /-- The hardware reset event (R271). -/
  | reset
deriving DecidableEq, Repr

end Sys2Proof
end

