-- ==== Sys2Proof/WellFormed.lean ====
section
/-! DEFINITION. When an instruction is well formed: its word is one the opcode map selects for its row, that is, its
operand is "legal when" its format says (30_encoding.md R92, R95, R96). A word that is not well formed still has a
meaning: it records ILLEGAL_OPERAND (R100). -/

namespace Sys2Proof

/-- The "legal when" column of R92 for the row of each instruction. A reserved opcode's row fixes only the opcode
(R99), and the rows of bus operations and of RESET have no operand that could be illegal. -/
def Instr.wellFormed : Instr → Bool
  | .nop operand => operand == 0
  | .select v rest => rest == 0 && decide (v.toNat ≤ 4)
  | .seedClear operand => operand == 0
  | .seedByte _ rest => rest == 0
  | .seed operand => operand == 0
  | .produce _ rest => rest == 0
  | .discard operand => operand == 0
  | .clearErr operand => operand == 0
  | .softReset operand => operand == 0
  | .reserved7 _ => true
  | .reserved8 _ => true
  | .reserved9 _ => true
  | .reservedA _ => true
  | .reservedB _ => true
  | .reservedC _ => true
  | .reservedD _ => true
  | .rdId => true
  | .wrCmd _ => true
  | .rdCmd => true
  | .rdStatus => true
  | .rdOut => true
  | .rdOutcnt => true
  | .rdSeedlen => true
  | .rdRemain => true
  | .rdReserved1C => true
  | .rdReserved20 => true
  | .rdReserved24 => true
  | .rdReserved28 => true
  | .rdReserved2C => true
  | .rdReserved30 => true
  | .rdReserved34 => true
  | .rdReserved38 => true
  | .rdReserved3C => true
  | .wrId _ => true
  | .wrStatus _ => true
  | .wrOut _ => true
  | .wrOutcnt _ => true
  | .wrSeedlen _ => true
  | .wrRemain _ => true
  | .wrReserved1C _ => true
  | .wrReserved20 _ => true
  | .wrReserved24 _ => true
  | .wrReserved28 _ => true
  | .wrReserved2C _ => true
  | .wrReserved30 _ => true
  | .wrReserved34 _ => true
  | .wrReserved38 _ => true
  | .wrReserved3C _ => true
  | .reset => true

end Sys2Proof
end

