-- ==== Sys2Proof/Decode.lean ====
section
/-! DEFINITION. The decoder and the encoder, from 30_encoding.md. A command is one 32-bit word (R90) and every word
decodes (R96, R99, R100). A bus access decodes to the operation on the register it names, or is rejected by name when
R66 does not admit it. -/

namespace Sys2Proof

/-- `w[31:28]`, the opcode (R90). -/
def opcodeField (w : Word) : BitVec 4 := w.extractLsb' 28 4

/-- `w[27:0]`, the operand (R90). -/
def operandField (w : Word) : BitVec 28 := w.extractLsb' 0 28

/-- The command word with opcode `op` and operand `a` (R90). -/
def commandWord (op : BitVec 4) (a : BitVec 28) : Word := op ++ a

/-- The command with opcode `op` and operand `a` (R92, R96). Total: the seven reserved opcodes have rows of their own
(R99) and the operand's illegal bits are kept (R100). The last arm is opcode 0xF. -/
def decodeFields (op : BitVec 4) (a : BitVec 28) : Instr :=
  match op.toNat with
  | 0x0 => .nop a
  | 0x1 => .select (a.extractLsb' 0 3) (a.extractLsb' 3 25)
  | 0x2 => .seedClear a
  | 0x3 => .seedByte (a.extractLsb' 0 8) (a.extractLsb' 8 20)
  | 0x4 => .seed a
  | 0x5 => .produce (a.extractLsb' 0 24) (a.extractLsb' 24 4)
  | 0x6 => .discard a
  | 0x7 => .reserved7 a
  | 0x8 => .reserved8 a
  | 0x9 => .reserved9 a
  | 0xA => .reservedA a
  | 0xB => .reservedB a
  | 0xC => .reservedC a
  | 0xD => .reservedD a
  | 0xE => .clearErr a
  | _ => .softReset a

/-- The command a word written to CMD carries (R91). -/
def decodeCommand (w : Word) : Instr := decodeFields (opcodeField w) (operandField w)

/-- Why a bus access is rejected: R66 admits a 32-bit access at a multiple of 4 in 0x00..0x3C and nothing else. -/
inductive DecodeError where
  /-- The access moves fewer or more than 32 bits (R66, NARROW_ACCESS). -/
  | narrow
  /-- A 32-bit access inside the window at an offset that is no multiple of 4 (R66). -/
  | misaligned
  /-- A 32-bit access outside the 64-byte window (R60, R66). -/
  | outside
deriving DecidableEq, Repr

/-- The rejection of a 32-bit access at an offset that names no register slot. -/
def rejectOffset (offset : Nat) : DecodeError := if offset < 64 then .misaligned else .outside

/-- The operation of a 32-bit read (R97). -/
def decodeRead (offset : Nat) : Except DecodeError Instr :=
  match offset with
  | 0x00 => .ok .rdId
  | 0x04 => .ok .rdCmd
  | 0x08 => .ok .rdStatus
  | 0x0C => .ok .rdOut
  | 0x10 => .ok .rdOutcnt
  | 0x14 => .ok .rdSeedlen
  | 0x18 => .ok .rdRemain
  | 0x1C => .ok .rdReserved1C
  | 0x20 => .ok .rdReserved20
  | 0x24 => .ok .rdReserved24
  | 0x28 => .ok .rdReserved28
  | 0x2C => .ok .rdReserved2C
  | 0x30 => .ok .rdReserved30
  | 0x34 => .ok .rdReserved34
  | 0x38 => .ok .rdReserved38
  | 0x3C => .ok .rdReserved3C
  | _ => .error (rejectOffset offset)

/-- The operation of a 32-bit write (R97). -/
def decodeWrite (offset : Nat) (value : Word) : Except DecodeError Instr :=
  match offset with
  | 0x04 => .ok (.wrCmd value)
  | 0x00 => .ok (.wrId value)
  | 0x08 => .ok (.wrStatus value)
  | 0x0C => .ok (.wrOut value)
  | 0x10 => .ok (.wrOutcnt value)
  | 0x14 => .ok (.wrSeedlen value)
  | 0x18 => .ok (.wrRemain value)
  | 0x1C => .ok (.wrReserved1C value)
  | 0x20 => .ok (.wrReserved20 value)
  | 0x24 => .ok (.wrReserved24 value)
  | 0x28 => .ok (.wrReserved28 value)
  | 0x2C => .ok (.wrReserved2C value)
  | 0x30 => .ok (.wrReserved30 value)
  | 0x34 => .ok (.wrReserved34 value)
  | 0x38 => .ok (.wrReserved38 value)
  | 0x3C => .ok (.wrReserved3C value)
  | _ => .error (rejectOffset offset)

/-- The operation of a host action (R16, R66, R97). -/
def decodeAction : BusAction → Except DecodeError Instr
  | .read width offset => if width = 4 then decodeRead offset else .error .narrow
  | .write width offset value => if width = 4 then decodeWrite offset value else .error .narrow
  | .reset => .ok .reset

/-- The host action that the opcode table's numbering of bits spells. 32 bits are a command word, which the host
writes to CMD (R111). RESET is an event with no bits. Any other number of bits is a bus operation: bits 5:0 of the
first byte are the offset, as the table has it; the table gives a read and a write of one offset the same bits, so the
model adds bit 6, 1 for a write, and bits 39:8, a write's value. DESIGN CHOICE: notes/assumptions/7.md. -/
def actionOfTableWord (nbits w : Nat) : BusAction :=
  if nbits = 32 then .write 4 0x04 (BitVec.ofNat 32 w)
  else if nbits = 0 then .reset
  else if w / 64 % 2 = 1 then .write 4 (w % 64 + 128 * (w / 128 % 2)) (BitVec.ofNat 32 (w / 256))
  else .read 4 (w % 64 + 128 * (w / 128 % 2))

/-- The instruction the decoder reads from a word numbered as spec/opcode_table.json numbers it: a 32-bit word is a
command word and decodes to its command's row, the others to the bus operation they spell. -/
def decodeTableWord (nbits w : Nat) : Option Instr :=
  if nbits = 32 then some (decodeCommand (BitVec.ofNat 32 w))
  else (decodeAction (actionOfTableWord nbits w)).toOption

/-- A read's bits in the model's numbering (notes/assumptions/7.md). -/
def readBits (offset : Nat) : Nat × Nat := (8, offset)

/-- A write's bits in the model's numbering (notes/assumptions/7.md). -/
def writeBits (offset : Nat) (value : Word) : Nat × Nat := (40, offset + 64 + 256 * value.toNat)

/-- The encoder: how many bits the instruction's word has, and the word (R92, R96, R97). -/
def encode : Instr → Nat × Nat
  | .nop operand => (32, (commandWord 0x0 operand).toNat)
  | .select v rest => (32, (commandWord 0x1 (rest ++ v)).toNat)
  | .seedClear operand => (32, (commandWord 0x2 operand).toNat)
  | .seedByte b rest => (32, (commandWord 0x3 (rest ++ b)).toNat)
  | .seed operand => (32, (commandWord 0x4 operand).toNat)
  | .produce n rest => (32, (commandWord 0x5 (rest ++ n)).toNat)
  | .discard operand => (32, (commandWord 0x6 operand).toNat)
  | .clearErr operand => (32, (commandWord 0xE operand).toNat)
  | .softReset operand => (32, (commandWord 0xF operand).toNat)
  | .reserved7 operand => (32, (commandWord 0x7 operand).toNat)
  | .reserved8 operand => (32, (commandWord 0x8 operand).toNat)
  | .reserved9 operand => (32, (commandWord 0x9 operand).toNat)
  | .reservedA operand => (32, (commandWord 0xA operand).toNat)
  | .reservedB operand => (32, (commandWord 0xB operand).toNat)
  | .reservedC operand => (32, (commandWord 0xC operand).toNat)
  | .reservedD operand => (32, (commandWord 0xD operand).toNat)
  | .rdId => readBits 0x00
  | .rdCmd => readBits 0x04
  | .rdStatus => readBits 0x08
  | .rdOut => readBits 0x0C
  | .rdOutcnt => readBits 0x10
  | .rdSeedlen => readBits 0x14
  | .rdRemain => readBits 0x18
  | .rdReserved1C => readBits 0x1C
  | .rdReserved20 => readBits 0x20
  | .rdReserved24 => readBits 0x24
  | .rdReserved28 => readBits 0x28
  | .rdReserved2C => readBits 0x2C
  | .rdReserved30 => readBits 0x30
  | .rdReserved34 => readBits 0x34
  | .rdReserved38 => readBits 0x38
  | .rdReserved3C => readBits 0x3C
  | .wrCmd w => writeBits 0x04 w
  | .wrId value => writeBits 0x00 value
  | .wrStatus value => writeBits 0x08 value
  | .wrOut value => writeBits 0x0C value
  | .wrOutcnt value => writeBits 0x10 value
  | .wrSeedlen value => writeBits 0x14 value
  | .wrRemain value => writeBits 0x18 value
  | .wrReserved1C value => writeBits 0x1C value
  | .wrReserved20 value => writeBits 0x20 value
  | .wrReserved24 value => writeBits 0x24 value
  | .wrReserved28 value => writeBits 0x28 value
  | .wrReserved2C value => writeBits 0x2C value
  | .wrReserved30 value => writeBits 0x30 value
  | .wrReserved34 value => writeBits 0x34 value
  | .wrReserved38 value => writeBits 0x38 value
  | .wrReserved3C value => writeBits 0x3C value
  | .reset => (0, 0)

/-- The command word of an instruction that is a command or a reserved opcode (R96); none for a bus operation. -/
def encodeCommand (i : Instr) : Option Word :=
  if (encode i).1 = 32 then some (BitVec.ofNat 32 (encode i).2) else none

/-- An assembler turns a command mnemonic into its word and "refuses a variant, byte or count out of range rather than
encode it" (R111); the reserved opcodes have no mnemonic. -/
def assemble (i : Instr) : Option Word :=
  match i with
  | .reserved7 _ => none
  | .reserved8 _ => none
  | .reserved9 _ => none
  | .reservedA _ => none
  | .reservedB _ => none
  | .reservedC _ => none
  | .reservedD _ => none
  | _ => if i.wellFormed then encodeCommand i else none

/-- The host action that performs an instruction (R97, R111). -/
def actionOf (i : Instr) : BusAction := actionOfTableWord (encode i).1 (encode i).2

end Sys2Proof
end

