-- ==== Sys2Proof/Config.lean ====
section
/-! DEFINITION. The implementation parameters (00_scope.md R6 to R9, 92_eei_decisions.md Open parameters). None is
state (10_state.md R20). -/

namespace Sys2Proof

/-- The value this hardware gives `FIFO_DEPTH`, the output FIFO's size in bytes (R7, D16). `FIFO_DEPTH` itself is an
argument of the engine's steps (R8, I6), which `step` gives this value (notes/assumptions/4.md). -/
def Config.fifoDepth : Nat := 4096

/-- `SEED_MAX`, the seed buffer's size in bytes (R7, R8; notes/assumptions/4.md). -/
def Config.seedMax : Nat := 256

/-- `DROP_COUNT`, the keystream bytes LEGACY_DROP drops after seeding (R6, R124, C1; notes/assumptions/4.md). -/
def Config.dropCount : Nat := 3072

/-- `outlen`, the block and value-register length in bytes (R6; notes/assumptions/4.md). -/
def Config.outLen : Nat := 16

/-- The constant the `ID` register reads, ASCII "vbig" (R31). -/
def Config.idValue : Word := 0x76626967

/-- `BLOCK_ENCRYPT(K, X)`, the block cipher: a total, deterministic function of a `keylen`-byte key and a 16-byte
block. "A model should keep BLOCK_ENCRYPT as a configuration field" (R9, D5): it has no body, so what is proved holds
for every cipher. That the hardware takes AES is the named property `Machine.CipherIsAes`, which a claim about
specific output bytes assumes. notes/assumptions/3.md. -/
opaque Config.blockEncrypt : List Byte → Block → Block

end Sys2Proof
end

