-- ==== Sys2Proof/Machine/State.lean ====
section
/-! DEFINITION. The machine's state: the spec's tuple (10_state.md R20) as `Engine`, and beside it the other agent,
the host (00_scope.md R16), as the input still to come and the values its reads returned. Reset values: 10_state.md
R47. -/

namespace Sys2Proof.Machine

/-- The five generator variants (R2, R95). `VARIANT` "can never hold" another code (R23). -/
inductive Variant where
  /-- Code 0, the legacy keystream. -/
  | legacy
  /-- Code 1, the legacy keystream with the 3072-byte drop. -/
  | legacyDrop
  /-- Code 2, the counter DRBG with a 16-byte key; the reset variant. -/
  | ctr128
  /-- Code 3, the counter DRBG with a 24-byte key. -/
  | ctr192
  /-- Code 4, the counter DRBG with a 32-byte key. -/
  | ctr256
deriving DecidableEq, Repr

/-- The error codes (R241). Codes 7 to 15 are "never produced"; "a model may type ERR as 0..6" (I19). -/
inductive ErrCode where
  /-- Code 0, NONE: no error pending. -/
  | noError
  /-- Code 1, ILLEGAL_CMD: a reserved opcode. -/
  | illegalCmd
  /-- Code 2, ILLEGAL_OPERAND: the operand breaks its format. -/
  | illegalOperand
  /-- Code 3, BUSY: a command written while BUSY = 1. -/
  | busyErr
  /-- Code 4, NOT_SEEDED: PRODUCE while SEEDED = 0. -/
  | notSeeded
  /-- Code 5, SEED_LEN: SEED with a seed length the variant does not accept. -/
  | seedLen
  /-- Code 6, SEED_OVF: SEED_BYTE with the buffer full. -/
  | seedOvf
deriving DecidableEq, Repr

/-- The legacy generator's state: the table `S` and the cursors `I`, `J` (R41). -/
structure LegacyState where
  s : Table
  i : Byte
  j : Byte
deriving DecidableEq, Repr

/-- The counter DRBG's state: the key register `KEY` and the value register `V` (R42). -/
structure DrbgState where
  key : KeyReg
  v : Block
deriving DecidableEq, Repr

/-- The engine's state, the tuple of R20. -/
structure Engine where
  /-- `VARIANT`, the selected generator (R23). -/
  variant : Variant
  /-- `SEEDED`: the selected generator has been seeded (R24). -/
  seeded : Bool
  /-- `BUSY`: a command is in flight (R25). -/
  busy : Bool
  /-- `ERR`: the first error since the last clear (R26). -/
  err : ErrCode
  /-- `SEEDBUF[0..255]`, the seed buffer (R40). -/
  seedBuf : Vector Byte 256
  /-- `SLEN`, the number of valid bytes in `SEEDBUF`, 0..256 (R40). -/
  slen : Nat
  /-- `S`, `I`, `J` (R41). -/
  legacy : LegacyState
  /-- `KEY`, `V` (R42). -/
  drbg : DrbgState
  /-- `PEND`: generated bytes not yet in the FIFO, head first (R43). -/
  pend : List Byte
  /-- `FIFO`: output bytes the host has not read, head first (R44). -/
  fifo : List Byte
deriving DecidableEq, Repr

/-- Who moves next (R16). The model's own: notes/assumptions/1.md. -/
inductive Turn where
  /-- The host performs an action. -/
  | host (a : BusAction)
  /-- The engine takes its enabled step, if it has one. -/
  | engine
deriving DecidableEq, Repr

/-- The engine and, around it, the host. `agenda` and `observed` are the model's own fields. -/
structure State where
  /-- The spec's state (R20). -/
  engine : Engine
  /-- The turns still to come: the host's actions in issue order, with the engine's turns between them
  (R16, R70). DESIGN CHOICE: notes/assumptions/1.md. -/
  agenda : List Turn
  /-- The values the host's reads returned, oldest first: a run's observation (R258). DESIGN CHOICE:
  notes/assumptions/2.md. -/
  observed : List Word
deriving DecidableEq, Repr

/-- The machine's faults. There is none: the engine has no traps (R240, R247), and an error is a code in `ERR`, not a
stop. notes/assumptions/18.md. -/
inductive Fault
deriving DecidableEq, Repr

/-- Why a step is refused. -/
inductive Refusal where
  /-- An instruction the model gives no meaning. Raised by an arm of `exec`; no arm raises it now. Safe. -/
  | notModelled (mnemonic : String)
  /-- A host access that does not move 32 bits (R66: "a model refuses it"). Raised by `step` when the host's next
  access has that form. Safe. -/
  | narrowAccess
  /-- A 32-bit access at an offset that is no multiple of 4 (R66). Raised by `step`. Safe. -/
  | misalignedAccess
  /-- A 32-bit access outside the 64-byte window (R60, R66). Raised by `step`. Safe. -/
  | outsideWindow
deriving DecidableEq, Repr

/-- The engine right after `RESET`: every value of R47, with `BUSY` = 0 (R271). -/
def Engine.reset : Engine where
  variant := .ctr128
  seeded := false
  busy := false
  err := .noError
  seedBuf := Vector.replicate 256 0
  slen := 0
  legacy := { s := Vector.replicate 256 0, i := 0, j := 0 }
  drbg := { key := Vector.replicate 32 0, v := Vector.replicate 16 0 }
  pend := []
  fifo := []

/-- The machine right after reset. The host has nothing to do and has read nothing: notes/assumptions/12.md. -/
def State.reset : State where
  engine := Engine.reset
  agenda := []
  observed := []

end Sys2Proof.Machine
end

