-- ==== Sys2Proof/Machine/Ops.lean ====
section
/-! DEFINITION. The named operations over the state and over byte sequences that the meanings share
(00_scope.md R11 to R15). -/

namespace Sys2Proof.Machine

/-! ### Byte sequences (R11, R12) -/

/-- `BE(bs)`, the big-endian unsigned integer of a byte sequence (R12). -/
def beNat (bs : List Byte) : Nat := bs.foldl (fun acc b => acc * 256 + b.toNat) 0

/-- The `n` low bytes of `x`, most significant first: `BEbytes_n` (R12). -/
def beBytes : Nat → Nat → List Byte
  | 0, _ => []
  | n + 1, x => beBytes n (x / 256) ++ [BitVec.ofNat 8 x]

/-- `xs ⊕ ys`, bytewise XOR (R11). -/
def xorBytes (xs ys : List Byte) : List Byte := List.zipWith (· ^^^ ·) xs ys

/-- `zeros(n)` (R11). -/
def zeros (n : Nat) : List Byte := List.replicate n 0

/-- A byte sequence as an `n`-byte array: its first `n` bytes, and zeros where it is shorter. -/
def arrayOf (n : Nat) (bs : List Byte) : Vector Byte n :=
  ⟨((bs ++ zeros n).take n).toArray, by simp [zeros]⟩

/-! ### The legacy table (R13, R120) -/

/-- `S[k]`. -/
def tableGet (t : Table) (k : Byte) : Byte := t[k.toNat]'k.isLt

/-- `swap(S[a], S[b])`. -/
def tableSwap (t : Table) (a b : Byte) : Table := t.swap a.toNat b.toNat a.isLt b.isLt

/-! ### Errors (R15, R243, R249) -/

/-- `raise Err(c)`: the one way the engine takes an error. It records the code if none is pending and changes nothing
else; the command that raises ends here (R15, R243, R244). -/
def raise (c : ErrCode) (e : Engine) : Engine :=
  if e.err = .noError then { e with err := c } else e

/-- The return from an error: `ERR <- 0` (R249). -/
def clearError (e : Engine) : Engine := { e with err := .noError }

/-! ### Output queues (R13) -/

/-- `push(FIFO, PEND[0]); PEND <- drop(PEND, 1)` (R200). With `PEND = []` there is nothing to move. -/
def moveByte (e : Engine) : Engine :=
  match e.pend with
  | [] => e
  | b :: rest => { e with fifo := e.fifo ++ [b], pend := rest }

/-- `pop(FIFO)`: the head, if there is one, and the engine without it (R13, R203). -/
def popFifo (e : Engine) : Option Byte × Engine :=
  match e.fifo with
  | [] => (none, e)
  | b :: rest => (some b, { e with fifo := rest })

/-! ### The host's side -/

/-- The state with another engine; the host's side is not touched. -/
def State.withEngine (s : State) (e : Engine) : State := { s with engine := e }

/-- The state with one turn put before the agenda. -/
def State.withTurn (s : State) (turn : Turn) : State := { s with agenda := turn :: s.agenda }

/-- A bus read returns `v` to the host (R14, R258; notes/assumptions/2.md). -/
def State.returnRead (s : State) (v : Word) : State := { s with observed := s.observed ++ [v] }

end Sys2Proof.Machine
end

