-- ==== Sys2Proof/Machine/Operands.lean ====
section
/-! DEFINITION. Operand forms (30_encoding.md R92 to R95, 44_commands_control.md R224) and the functions of `VARIANT`
(10_state.md R23). -/

namespace Sys2Proof.Machine

/-- The variant a 3-bit code selects; 5, 6 and 7 select none (R95). -/
def Variant.ofCode? (v : BitVec 3) : Option Variant :=
  match v.toNat with
  | 0 => some .legacy
  | 1 => some .legacyDrop
  | 2 => some .ctr128
  | 3 => some .ctr192
  | 4 => some .ctr256
  | _ => none

/-- `keylen(VARIANT)` in bytes, defined for the counter DRBG variants only (R23, R140). So `legacy(VARIANT)` is
`keyLen? = none`. -/
def Variant.keyLen? : Variant → Option Nat
  | .legacy => none
  | .legacyDrop => none
  | .ctr128 => some 16
  | .ctr192 => some 24
  | .ctr256 => some 32

/-- `seedlen(VARIANT) = outlen + keylen`, of a key length (R6, R23). -/
def seedLenOf (kl : Nat) : Nat := Config.outLen + kl

/-- Step 1 of R225: the opcode is one of the nine defined ones. -/
def definedOpcode (op : BitVec 4) : Bool :=
  [0x0#4, 0x1#4, 0x2#4, 0x3#4, 0x4#4, 0x5#4, 0x6#4, 0xE#4, 0xF#4].contains op

/-- `OperandLegal(op, a)` (R224). "It is only asked for defined opcodes", so the last arm is format Z. -/
def operandLegal (op : BitVec 4) (a : BitVec 28) : Bool :=
  match op.toNat with
  | 0x1 => a.extractLsb' 3 25 == 0 && decide ((a.extractLsb' 0 3).toNat ≤ 4)
  | 0x3 => a.extractLsb' 8 20 == 0
  | 0x5 => a.extractLsb' 24 4 == 0
  | _ => a == 0

end Sys2Proof.Machine
end

