-- ==== Sys2Proof/Machine/Drbg.lean ====
section
/-! DEFINITION. The counter-mode DRBG (41_counter_drbg.md R140 to R154), for any block cipher `E` (R9). `kl` is
`keylen(VARIANT)`. -/

namespace Sys2Proof.Machine

/-- A block cipher: key bytes and a block to a block (R9). -/
abbrev Cipher := List Byte → Block → Block

/-- The cipher the machine runs: the configuration's (R9, D37; notes/assumptions/3.md). -/
def cipher : Cipher := fun K X => Config.blockEncrypt K X

/-- The carry loop of R143 from byte `k - 1` down to byte 0. -/
def incFrom : (k : Nat) → k ≤ 16 → Block → Block
  | 0, _, v => v
  | k + 1, h, v =>
    let b := v[k] + 1
    let v' := v.set k b
    if b ≠ 0 then v' else incFrom k (Nat.le_of_succ_le h) v'

/-- `Inc()`: `V` is one big-endian integer and 1 is added with carry across the whole register; it wraps (R143). -/
def inc (v : Block) : Block := incFrom 16 (Nat.le_refl 16) v

/-- `k` rounds of "increment the value register and encrypt it" under the key bytes `K`: the bytes of the `k` blocks in
order, and the value register after them. The loop of `Update` (R145) and of `Generate` (R149). -/
def cipherStream (E : Cipher) (K : List Byte) : Nat → Block → List Byte × Block
  | 0, v => ([], v)
  | k + 1, v =>
    let v' := inc v
    let r := cipherStream E K k v'
    ((E K v').toList ++ r.1, r.2)

/-- How many blocks hold `n` bytes, `ceil(n / 16)` (R146, R149). -/
def blocksFor (n : Nat) : Nat := (n + (Config.outLen - 1)) / Config.outLen

/-- The key bytes in use, `KEY[0..kl-1]` (R42, R141). -/
def keyBytes (kl : Nat) (d : DrbgState) : List Byte := d.key.toList.take kl

/-- `Update(pd)` (R145): every block under the entry key, the surplus of the last block dropped, the XOR, then the
first `kl` bytes to `KEY` with the unused bytes 0, and the remaining 16 to `V`. -/
def drbgUpdate (E : Cipher) (kl : Nat) (pd : List Byte) (d : DrbgState) : DrbgState :=
  let stream := (cipherStream E (keyBytes kl d) (blocksFor (seedLenOf kl)) d.v).1
  let temp := xorBytes (stream.take (seedLenOf kl)) pd
  { key := arrayOf 32 (temp.take kl), v := arrayOf 16 (temp.drop kl) }

/-- The seed material: seed byte `k` XORed into zero byte `k` (R147, D12). -/
def seedMaterial (kl : Nat) (p : List Byte) : List Byte :=
  xorBytes (zeros (seedLenOf kl)) (p ++ zeros (seedLenOf kl - p.length))

/-- `Instantiate(p)`: zero key, zero value register, exactly one update with the seed material (R147, D13). -/
def drbgInstantiate (E : Cipher) (kl : Nat) (p : List Byte) : DrbgState :=
  drbgUpdate E kl (seedMaterial kl p) { key := arrayOf 32 (zeros 32), v := arrayOf 16 (zeros 16) }

/-- `Generate(n)`: the leftmost `n` bytes of the blocks, the tail of a partial last block discarded, then one update
with zeros, also when `n = 0` (R149, D14, D15). -/
def drbgGenerate (E : Cipher) (kl n : Nat) (d : DrbgState) : List Byte × DrbgState :=
  let r := cipherStream E (keyBytes kl d) (blocksFor n) d.v
  (r.1.take n, drbgUpdate E kl (zeros (seedLenOf kl)) { d with v := r.2 })

/-- `DrbgProduce(n) = Generate(n)`, with its one update and no second one (R150, C2). -/
def drbgProduce (E : Cipher) (kl n : Nat) (d : DrbgState) : List Byte × DrbgState := drbgGenerate E kl n d

end Sys2Proof.Machine
end

