-- ==== Sys2Proof/Machine/Legacy.lean ====
section
/-! DEFINITION. The legacy keystream generator (40_legacy_keystream.md R120 to R124). -/

namespace Sys2Proof.Machine

/-- The identity table the key schedule starts from: `S[k] <- k` (R121; notes/assumptions/5.md). -/
def identityTable : Table := arrayOf 256 ((List.range 256).map (BitVec.ofNat 8))

/-- One pass of the key schedule's loop, for index `i`: `j <- (j + S[i] + key[i mod L]) mod 256; swap(S[i], S[j])`
(R121). The key is never empty (SEED refuses it, R175), so the default is not read. -/
def rc4ScheduleStep (key : List Byte) (acc : Byte × Table) (i : Nat) : Byte × Table :=
  let j := acc.1 + tableGet acc.2 (BitVec.ofNat 8 i) + key.getD (i % key.length) 0
  (j, tableSwap acc.2 (BitVec.ofNat 8 i) j)

/-- `Rc4Seed(key)`, the key schedule; it depends on nothing of the previous state (R121). -/
def rc4Seed (key : List Byte) : LegacyState where
  s := ((List.range 256).foldl (rc4ScheduleStep key) (0, identityTable)).2
  i := 0
  j := 0

/-- `Rc4Step()`, one output byte: the index of the emitted byte is computed after the swap (R122). -/
def rc4Step (st : LegacyState) : Byte × LegacyState :=
  let i := st.i + 1
  let j := st.j + tableGet st.s i
  let s := tableSwap st.s i j
  (tableGet s (tableGet s i + tableGet s j), { s := s, i := i, j := j })

/-- `Rc4Produce(n)`: the results of `n` steps, first call first (R123). -/
def rc4Produce : Nat → LegacyState → List Byte × LegacyState
  | 0, st => ([], st)
  | n + 1, st =>
    let r := rc4Step st
    let q := rc4Produce n r.2
    (r.1 :: q.1, q.2)

/-- `Rc4Discard(m)`: `m` steps whose results are thrown away (R124). -/
def rc4Discard : Nat → LegacyState → LegacyState
  | 0, st => st
  | m + 1, st => rc4Discard m (rc4Step st).2

end Sys2Proof.Machine
end

