-- ==== Sys2Proof/Machine/ConfigCommands.lean ====
section
/-! DEFINITION. The `Execute` parts of the configuration and seeding commands (42_commands_config.md R170 to R175). -/

namespace Sys2Proof.Machine

/-- NOP: `BUSY <- 1` (R171). -/
def nopEffect (e : Engine) : Engine := { e with busy := true }

/-- SELECT `v` (R172). A code 5..7 "raises ILLEGAL_OPERAND at acceptance" and never gets here; the none arm says the
same. -/
def selectEffect (v : BitVec 3) (e : Engine) : Engine :=
  match Variant.ofCode? v with
  | some g => { e with variant := g, seeded := false, fifo := [], busy := true }
  | none => raise .illegalOperand e

/-- SEED_CLEAR: `SLEN <- 0; BUSY <- 1` (R173). The bytes of `SEEDBUF` stay. -/
def seedClearEffect (e : Engine) : Engine := { e with slen := 0, busy := true }

/-- SEED_BYTE `b`: append one byte, or SEED_OVF when the buffer is full (R174). -/
def seedByteEffect (b : Byte) (e : Engine) : Engine :=
  if e.slen = Config.seedMax then raise .seedOvf e
  else { e with seedBuf := e.seedBuf.setIfInBounds e.slen b, slen := e.slen + 1, busy := true }

/-- The seed, `SEEDBUF[0..SLEN-1]` (R40, R175). -/
def seedBytes (e : Engine) : List Byte := e.seedBuf.toList.take e.slen

/-- Whether the selected variant accepts the seed length: at least 1, and at most `seedlen` for a counter DRBG
(R175, D11). -/
def seedLengthOk (e : Engine) : Bool :=
  match e.variant.keyLen? with
  | none => e.slen != 0
  | some kl => e.slen != 0 && decide (e.slen ≤ seedLenOf kl)

/-- The generator state after a SEED: only the selected family's is written (R121, R124, R147, R175). -/
def seedGenerator (e : Engine) : Engine :=
  match e.variant with
  | .legacy => { e with legacy := rc4Seed (seedBytes e) }
  | .legacyDrop => { e with legacy := rc4Discard Config.dropCount (rc4Seed (seedBytes e)) }
  | .ctr128 => { e with drbg := drbgInstantiate cipher 16 (seedBytes e) }
  | .ctr192 => { e with drbg := drbgInstantiate cipher 24 (seedBytes e) }
  | .ctr256 => { e with drbg := drbgInstantiate cipher 32 (seedBytes e) }

/-- SEED (R175). -/
def seedEffect (e : Engine) : Engine :=
  if seedLengthOk e then { seedGenerator e with seeded := true, fifo := [], pend := [], busy := true }
  else raise .seedLen e

end Sys2Proof.Machine
end

