-- ==== Sys2Proof/Machine/OutputCommands.lean ====
section
/-! DEFINITION. The `Execute` parts of the output commands and the engine's own steps (43_commands_output.md R190 to
R202). -/

namespace Sys2Proof.Machine

/-- The `n` bytes the selected generator emits next, and the engine with that generator advanced
(R123, R150, R190). -/
def generate (n : Nat) (e : Engine) : List Byte × Engine :=
  match e.variant.keyLen? with
  | none =>
    let r := rc4Produce n e.legacy
    (r.1, { e with legacy := r.2 })
  | some kl =>
    let r := drbgProduce cipher kl n e.drbg
    (r.1, { e with drbg := r.2 })

/-- PRODUCE `n` (R190): all of the request's bytes go to `PEND` at acceptance. -/
def produceEffect (n : Nat) (e : Engine) : Engine :=
  if e.seeded then { (generate n e).2 with pend := (generate n e).1, busy := true }
  else raise .notSeeded e

/-- DISCARD: `FIFO <- []; BUSY <- 1` (R191). -/
def discardEffect (e : Engine) : Engine := { e with fifo := [], busy := true }

/-- `PUSH` is enabled when `PEND ≠ []` and `|FIFO| < FIFO_DEPTH` (R200). `depth` is the parameter `FIFO_DEPTH`: the
rules are "stated for any `FIFO_DEPTH` ≥ 1" (R8). -/
def pushEnabled (depth : Nat) (e : Engine) : Bool := !e.pend.isEmpty && decide (e.fifo.length < depth)

/-- `DONE` is enabled when `BUSY = 1` and `PEND = []` (R201). -/
def doneEnabled (e : Engine) : Bool := e.busy && e.pend.isEmpty

/-- The engine's turn: `PUSH` or `DONE`, whichever is enabled; never both are, and it "takes no other step"
(R200, R201, R202). With neither enabled the turn passes (notes/assumptions/9.md). -/
def engineStep (depth : Nat) (e : Engine) : Engine :=
  if pushEnabled depth e then moveByte e
  else if doneEnabled e then { e with busy := false }
  else e

end Sys2Proof.Machine
end

