-- ==== Sys2Proof/Machine/ControlCommands.lean ====
section
/-! DEFINITION. The control commands and command acceptance (44_commands_control.md R220 to R227). -/

namespace Sys2Proof.Machine

/-- CLEAR_ERR: `ERR <- 0`; it neither sets nor waits for `BUSY` (R220). -/
def clearErrEffect (e : Engine) : Engine := clearError e

/-- SOFT_RESET: every reset value but `BUSY`, which becomes 1 (R221, R272). The old state does not matter. -/
def softResetEffect (_e : Engine) : Engine := { Engine.reset with busy := true }

/-- `Execute(op, a)` (R226). "No other opcode reaches it": the last arm does nothing. -/
def executeCommand (op : BitVec 4) (a : BitVec 28) (e : Engine) : Engine :=
  match op.toNat with
  | 0x0 => nopEffect e
  | 0x1 => selectEffect (a.extractLsb' 0 3) e
  | 0x2 => seedClearEffect e
  | 0x3 => seedByteEffect (a.extractLsb' 0 8) e
  | 0x4 => seedEffect e
  | 0x5 => produceEffect (a.extractLsb' 0 24).toNat e
  | 0x6 => discardEffect e
  | _ => e

/-- Steps 1 to 7 of `AcceptCmd` (R225), on the word's opcode and operand. -/
def acceptFields (op : BitVec 4) (a : BitVec 28) (e : Engine) : Engine :=
  if !definedOpcode op then raise .illegalCmd e
  else if !operandLegal op a then raise .illegalOperand e
  else if op = 0xF then softResetEffect e
  else if op = 0xE then clearErrEffect e
  else if e.err ≠ .noError then e
  else if e.busy then raise .busyErr e
  else executeCommand op a e

/-- `AcceptCmd(w)` (R225). -/
def acceptCmd (w : Word) (e : Engine) : Engine := acceptFields (opcodeField w) (operandField w) e

end Sys2Proof.Machine
end

