-- ==== Sys2Proof/Machine/Commands.lean ====
section
/-! DEFINITION. The meanings of the sixteen command rows. Performing a command is writing its word to CMD
(30_encoding.md R111), so each is the acceptance function on the row's opcode and operand (44_commands_control.md
R225), which a bad operand, a pending error and BUSY are checked by before the command's own effect. -/

namespace Sys2Proof.Machine

/-- NOP (R171). -/
def execNop (operand : BitVec 28) (s : State) : Host.Outcome State Fault Refusal :=
  .next (s.withEngine (acceptFields 0x0 operand s.engine))

/-- SELECT (R172). -/
def execSelect (v : BitVec 3) (rest : BitVec 25) (s : State) : Host.Outcome State Fault Refusal :=
  .next (s.withEngine (acceptFields 0x1 (rest ++ v) s.engine))

/-- SEED_CLEAR (R173). -/
def execSeedClear (operand : BitVec 28) (s : State) : Host.Outcome State Fault Refusal :=
  .next (s.withEngine (acceptFields 0x2 operand s.engine))

/-- SEED_BYTE (R174). -/
def execSeedByte (b : Byte) (rest : BitVec 20) (s : State) : Host.Outcome State Fault Refusal :=
  .next (s.withEngine (acceptFields 0x3 (rest ++ b) s.engine))

/-- SEED (R175). -/
def execSeed (operand : BitVec 28) (s : State) : Host.Outcome State Fault Refusal :=
  .next (s.withEngine (acceptFields 0x4 operand s.engine))

/-- PRODUCE (R190). -/
def execProduce (n : BitVec 24) (rest : BitVec 4) (s : State) : Host.Outcome State Fault Refusal :=
  .next (s.withEngine (acceptFields 0x5 (rest ++ n) s.engine))

/-- DISCARD (R191). -/
def execDiscard (operand : BitVec 28) (s : State) : Host.Outcome State Fault Refusal :=
  .next (s.withEngine (acceptFields 0x6 operand s.engine))

/-- CLEAR_ERR (R220). -/
def execClearErr (operand : BitVec 28) (s : State) : Host.Outcome State Fault Refusal :=
  .next (s.withEngine (acceptFields 0xE operand s.engine))

/-- SOFT_RESET (R221). -/
def execSoftReset (operand : BitVec 28) (s : State) : Host.Outcome State Fault Refusal :=
  .next (s.withEngine (acceptFields 0xF operand s.engine))

/-- RESERVED_7 (R99). -/
def execReserved7 (operand : BitVec 28) (s : State) : Host.Outcome State Fault Refusal :=
  .next (s.withEngine (acceptFields 0x7 operand s.engine))

/-- RESERVED_8 (R99). -/
def execReserved8 (operand : BitVec 28) (s : State) : Host.Outcome State Fault Refusal :=
  .next (s.withEngine (acceptFields 0x8 operand s.engine))

/-- RESERVED_9 (R99). -/
def execReserved9 (operand : BitVec 28) (s : State) : Host.Outcome State Fault Refusal :=
  .next (s.withEngine (acceptFields 0x9 operand s.engine))

/-- RESERVED_A (R99). -/
def execReservedA (operand : BitVec 28) (s : State) : Host.Outcome State Fault Refusal :=
  .next (s.withEngine (acceptFields 0xA operand s.engine))

/-- RESERVED_B (R99). -/
def execReservedB (operand : BitVec 28) (s : State) : Host.Outcome State Fault Refusal :=
  .next (s.withEngine (acceptFields 0xB operand s.engine))

/-- RESERVED_C (R99). -/
def execReservedC (operand : BitVec 28) (s : State) : Host.Outcome State Fault Refusal :=
  .next (s.withEngine (acceptFields 0xC operand s.engine))

/-- RESERVED_D (R99). -/
def execReservedD (operand : BitVec 28) (s : State) : Host.Outcome State Fault Refusal :=
  .next (s.withEngine (acceptFields 0xD operand s.engine))

end Sys2Proof.Machine
end

