-- ==== Sys2Proof/Machine/Flags.lean ====
section
/-! DEFINITION. The `STATUS` word and the other register values (10_state.md R31 to R38, 43_commands_output.md R203 to
R209). -/

namespace Sys2Proof.Machine

/-- `VARIANT`'s 3-bit code (R2). -/
def Variant.code : Variant → BitVec 3
  | .legacy => 0
  | .legacyDrop => 1
  | .ctr128 => 2
  | .ctr192 => 3
  | .ctr256 => 4

/-- `ERR`'s 4-bit code (R241). -/
def ErrCode.code : ErrCode → BitVec 4
  | .noError => 0
  | .illegalCmd => 1
  | .illegalOperand => 2
  | .busyErr => 3
  | .notSeeded => 4
  | .seedLen => 5
  | .seedOvf => 6

/-- `zext_32(ERR << 8 | VARIANT << 2 | SEEDED << 1 | BUSY)` (R33, R204). -/
def statusWord (e : Engine) : Word :=
  (e.err.code.setWidth 32 <<< 8) ||| (e.variant.code.setWidth 32 <<< 2)
    ||| ((BitVec.ofBool e.seeded).setWidth 32 <<< 1) ||| (BitVec.ofBool e.busy).setWidth 32

/-- What a read of `OUT` returns: `0x100 OR b` for a popped byte `b`, 0 when there was none (R34, R203). -/
def outWord : Option Byte → Word
  | none => 0
  | some b => 0x100 ||| b.setWidth 32

/-- What a read of a count register returns, for `|FIFO|`, `SLEN` and `|PEND|` (R35, R36, R37). -/
def countWord (n : Nat) : Word := BitVec.ofNat 32 n

end Sys2Proof.Machine
end

