-- ==== Sys2Proof/Machine/Registers.lean ====
section
/-! DEFINITION. The meanings of the bus operations and of RESET (43_commands_output.md R203 to R210,
70_reset_and_hazards.md R271). -/

namespace Sys2Proof.Machine

/-- RD_ID: the constant (R205). -/
def execRdId (s : State) : Host.Outcome State Fault Refusal := .next (s.returnRead Config.idValue)

/-- WR_CMD: the acceptance function on the written word (R210, R225). -/
def execWrCmd (w : Word) (s : State) : Host.Outcome State Fault Refusal :=
  .next (s.withEngine (acceptCmd w s.engine))

/-- RD_CMD: CMD is write-only and reads 0 (R209). -/
def execRdCmd (s : State) : Host.Outcome State Fault Refusal := .next (s.returnRead 0)

/-- RD_STATUS (R204). -/
def execRdStatus (s : State) : Host.Outcome State Fault Refusal := .next (s.returnRead (statusWord s.engine))

/-- RD_OUT: the one read with a side effect, a pop (R203). -/
def execRdOut (s : State) : Host.Outcome State Fault Refusal :=
  let r := popFifo s.engine
  .next ((s.withEngine r.2).returnRead (outWord r.1))

/-- RD_OUTCNT: `|FIFO|` (R206). -/
def execRdOutcnt (s : State) : Host.Outcome State Fault Refusal :=
  .next (s.returnRead (countWord s.engine.fifo.length))

/-- RD_SEEDLEN: `SLEN` (R207). -/
def execRdSeedlen (s : State) : Host.Outcome State Fault Refusal :=
  .next (s.returnRead (countWord s.engine.slen))

/-- RD_REMAIN: `|PEND|` (R208). -/
def execRdRemain (s : State) : Host.Outcome State Fault Refusal :=
  .next (s.returnRead (countWord s.engine.pend.length))

/-- RD_RESERVED_1C: a reserved offset reads 0 (R209). -/
def execRdReserved1C (s : State) : Host.Outcome State Fault Refusal := .next (s.returnRead 0)

/-- RD_RESERVED_20: a reserved offset reads 0 (R209). -/
def execRdReserved20 (s : State) : Host.Outcome State Fault Refusal := .next (s.returnRead 0)

/-- RD_RESERVED_24: a reserved offset reads 0 (R209). -/
def execRdReserved24 (s : State) : Host.Outcome State Fault Refusal := .next (s.returnRead 0)

/-- RD_RESERVED_28: a reserved offset reads 0 (R209). -/
def execRdReserved28 (s : State) : Host.Outcome State Fault Refusal := .next (s.returnRead 0)

/-- RD_RESERVED_2C: a reserved offset reads 0 (R209). -/
def execRdReserved2C (s : State) : Host.Outcome State Fault Refusal := .next (s.returnRead 0)

/-- RD_RESERVED_30: a reserved offset reads 0 (R209). -/
def execRdReserved30 (s : State) : Host.Outcome State Fault Refusal := .next (s.returnRead 0)

/-- RD_RESERVED_34: a reserved offset reads 0 (R209). -/
def execRdReserved34 (s : State) : Host.Outcome State Fault Refusal := .next (s.returnRead 0)

/-- RD_RESERVED_38: a reserved offset reads 0 (R209). -/
def execRdReserved38 (s : State) : Host.Outcome State Fault Refusal := .next (s.returnRead 0)

/-- RD_RESERVED_3C: a reserved offset reads 0 (R209). -/
def execRdReserved3C (s : State) : Host.Outcome State Fault Refusal := .next (s.returnRead 0)

/-- WR_ID: no effect, no error (R210). -/
def execWrId (_value : Word) (s : State) : Host.Outcome State Fault Refusal := .next s

/-- WR_STATUS: no effect, no error (R210). -/
def execWrStatus (_value : Word) (s : State) : Host.Outcome State Fault Refusal := .next s

/-- WR_OUT: no effect, no error (R210). -/
def execWrOut (_value : Word) (s : State) : Host.Outcome State Fault Refusal := .next s

/-- WR_OUTCNT: no effect, no error (R210). -/
def execWrOutcnt (_value : Word) (s : State) : Host.Outcome State Fault Refusal := .next s

/-- WR_SEEDLEN: no effect, no error (R210). -/
def execWrSeedlen (_value : Word) (s : State) : Host.Outcome State Fault Refusal := .next s

/-- WR_REMAIN: no effect, no error (R210). -/
def execWrRemain (_value : Word) (s : State) : Host.Outcome State Fault Refusal := .next s

/-- WR_RESERVED_1C: no effect, no error (R210). -/
def execWrReserved1C (_value : Word) (s : State) : Host.Outcome State Fault Refusal := .next s

/-- WR_RESERVED_20: no effect, no error (R210). -/
def execWrReserved20 (_value : Word) (s : State) : Host.Outcome State Fault Refusal := .next s

/-- WR_RESERVED_24: no effect, no error (R210). -/
def execWrReserved24 (_value : Word) (s : State) : Host.Outcome State Fault Refusal := .next s

/-- WR_RESERVED_28: no effect, no error (R210). -/
def execWrReserved28 (_value : Word) (s : State) : Host.Outcome State Fault Refusal := .next s

/-- WR_RESERVED_2C: no effect, no error (R210). -/
def execWrReserved2C (_value : Word) (s : State) : Host.Outcome State Fault Refusal := .next s

/-- WR_RESERVED_30: no effect, no error (R210). -/
def execWrReserved30 (_value : Word) (s : State) : Host.Outcome State Fault Refusal := .next s

/-- WR_RESERVED_34: no effect, no error (R210). -/
def execWrReserved34 (_value : Word) (s : State) : Host.Outcome State Fault Refusal := .next s

/-- WR_RESERVED_38: no effect, no error (R210). -/
def execWrReserved38 (_value : Word) (s : State) : Host.Outcome State Fault Refusal := .next s

/-- WR_RESERVED_3C: no effect, no error (R210). -/
def execWrReserved3C (_value : Word) (s : State) : Host.Outcome State Fault Refusal := .next s

/-- RESET: every reset value, with `BUSY` = 0, at any point of a run; the host's side is not the engine's
(R271; notes/assumptions/12.md). -/
def execReset (s : State) : Host.Outcome State Fault Refusal := .next (s.withEngine Engine.reset)

end Sys2Proof.Machine
end

