-- ==== Sys2Proof/Machine/Dispatch.lean ====
section
/-! DEFINITION. The dispatch: one arm per instruction, one direct call of its meaning each. -/

namespace Sys2Proof.Machine

def exec (i : Instr) (s : State) : Host.Outcome State Fault Refusal :=
  match i with
  | .nop operand => Sys2Proof.Machine.execNop operand s
  | .select v rest => Sys2Proof.Machine.execSelect v rest s
  | .seedClear operand => Sys2Proof.Machine.execSeedClear operand s
  | .seedByte b rest => Sys2Proof.Machine.execSeedByte b rest s
  | .seed operand => Sys2Proof.Machine.execSeed operand s
  | .produce n rest => Sys2Proof.Machine.execProduce n rest s
  | .discard operand => Sys2Proof.Machine.execDiscard operand s
  | .clearErr operand => Sys2Proof.Machine.execClearErr operand s
  | .softReset operand => Sys2Proof.Machine.execSoftReset operand s
  | .reserved7 operand => Sys2Proof.Machine.execReserved7 operand s
  | .reserved8 operand => Sys2Proof.Machine.execReserved8 operand s
  | .reserved9 operand => Sys2Proof.Machine.execReserved9 operand s
  | .reservedA operand => Sys2Proof.Machine.execReservedA operand s
  | .reservedB operand => Sys2Proof.Machine.execReservedB operand s
  | .reservedC operand => Sys2Proof.Machine.execReservedC operand s
  | .reservedD operand => Sys2Proof.Machine.execReservedD operand s
  | .rdId => Sys2Proof.Machine.execRdId s
  | .wrCmd w => Sys2Proof.Machine.execWrCmd w s
  | .rdCmd => Sys2Proof.Machine.execRdCmd s
  | .rdStatus => Sys2Proof.Machine.execRdStatus s
  | .rdOut => Sys2Proof.Machine.execRdOut s
  | .rdOutcnt => Sys2Proof.Machine.execRdOutcnt s
  | .rdSeedlen => Sys2Proof.Machine.execRdSeedlen s
  | .rdRemain => Sys2Proof.Machine.execRdRemain s
  | .rdReserved1C => Sys2Proof.Machine.execRdReserved1C s
  | .rdReserved20 => Sys2Proof.Machine.execRdReserved20 s
  | .rdReserved24 => Sys2Proof.Machine.execRdReserved24 s
  | .rdReserved28 => Sys2Proof.Machine.execRdReserved28 s
  | .rdReserved2C => Sys2Proof.Machine.execRdReserved2C s
  | .rdReserved30 => Sys2Proof.Machine.execRdReserved30 s
  | .rdReserved34 => Sys2Proof.Machine.execRdReserved34 s
  | .rdReserved38 => Sys2Proof.Machine.execRdReserved38 s
  | .rdReserved3C => Sys2Proof.Machine.execRdReserved3C s
  | .wrId value => Sys2Proof.Machine.execWrId value s
  | .wrStatus value => Sys2Proof.Machine.execWrStatus value s
  | .wrOut value => Sys2Proof.Machine.execWrOut value s
  | .wrOutcnt value => Sys2Proof.Machine.execWrOutcnt value s
  | .wrSeedlen value => Sys2Proof.Machine.execWrSeedlen value s
  | .wrRemain value => Sys2Proof.Machine.execWrRemain value s
  | .wrReserved1C value => Sys2Proof.Machine.execWrReserved1C value s
  | .wrReserved20 value => Sys2Proof.Machine.execWrReserved20 value s
  | .wrReserved24 value => Sys2Proof.Machine.execWrReserved24 value s
  | .wrReserved28 value => Sys2Proof.Machine.execWrReserved28 value s
  | .wrReserved2C value => Sys2Proof.Machine.execWrReserved2C value s
  | .wrReserved30 value => Sys2Proof.Machine.execWrReserved30 value s
  | .wrReserved34 value => Sys2Proof.Machine.execWrReserved34 value s
  | .wrReserved38 value => Sys2Proof.Machine.execWrReserved38 value s
  | .wrReserved3C value => Sys2Proof.Machine.execWrReserved3C value s
  | .reset => Sys2Proof.Machine.execReset s

end Sys2Proof.Machine
end

