-- ==== Sys2Proof/Machine/Turns.lean ====
section
/-! DEFINITION. The turns of the two agents (00_scope.md R16), for any `FIFO_DEPTH` (R8). -/

namespace Sys2Proof.Machine

/-- The refusal of an access the decoder rejects (R66). -/
def refusalOf : DecodeError → Refusal
  | .narrow => .narrowAccess
  | .misaligned => .misalignedAccess
  | .outside => .outsideWindow

/-- One turn: the host's action is decoded and executed, or the engine takes its step (R16, R67). -/
def takeTurn (depth : Nat) (turn : Turn) (s : State) : Host.Outcome State Fault Refusal :=
  match turn with
  | .engine => .next (s.withEngine (engineStep depth s.engine))
  | .host a =>
    match decodeAction a with
    | .ok i => exec i s
    | .error r => .refused (refusalOf r)

/-- One atomic transition of the machine with a FIFO of `depth` bytes: the next turn of the agenda is taken. When the
host has no further access, only the engine moves (R258; notes/assumptions/1.md, notes/assumptions/9.md). -/
def stepAt (depth : Nat) (s : State) : Host.Outcome State Fault Refusal :=
  match s.agenda with
  | [] => takeTurn depth .engine s
  | turn :: rest => takeTurn depth turn { s with agenda := rest }

/-- `k` transitions, up to the first refusal. -/
def stepsAt (depth : Nat) : Nat → State → Host.Outcome State Fault Refusal
  | 0, s => .next s
  | k + 1, s =>
    match stepAt depth s with
    | .next t => stepsAt depth k t
    | .fault r => .fault r
    | .refused r => .refused r

end Sys2Proof.Machine
end

