-- ==== Sys2Proof/Machine/Step.lean ====
section
/-! DEFINITION. One step of the machine (00_scope.md R16), with the FIFO this hardware has (R7). -/

namespace Sys2Proof.Machine

/-- One atomic transition (R16, R67), with `FIFO_DEPTH` at the spec's value. -/
def step (s : State) : Host.Outcome State Fault Refusal := stepAt Config.fifoDepth s

/-- The state in which the host's very next action is the one these bits spell. The engine fetches nothing (R22): the
host's actions are where the machine takes its next instruction from (notes/assumptions/7.md,
notes/assumptions/8.md). -/
def State.withFetchWord (s : State) (nbits w : Nat) : State := s.withTurn (.host (actionOfTableWord nbits w))

end Sys2Proof.Machine
end

