-- ==== Sys2Proof/Machine/HostProgram.lean ====
section
/-! DEFINITION. Host programs and their expansion (30_encoding.md R110 to R114). The engine sees only the bus operations
a line expands to (R114), and how often one is repeated depends on what its reads return. So a line expands to
elementary operations, each of which says which access it makes and what it makes of the returned value. How a program
runs beside the engine is Machine/HostRun.lean. -/

namespace Sys2Proof.Machine

/-- One access the host made, with the value a read returned. -/
abbrev Access := BusAction × Option Word

/-- The host's accesses, with the returned values handed to the reads in order (R258). -/
def transcript : List BusAction → List Word → List Access
  | [], _ => []
  | .read width offset :: rest, v :: vs => (.read width offset, some v) :: transcript rest vs
  | a :: rest, vs => (a, none) :: transcript rest vs

/-- One line of a host program: a bus operation or a pseudo-operation (R110, R113). -/
inductive HostLine where
  /-- `RD`, `WR`, `RESET` or a command mnemonic. -/
  | bus (a : BusAction)
  /-- `WAIT_IDLE`. -/
  | waitIdle
  /-- `CHECK_OK`. -/
  | checkOk
  /-- `DO <cmd>`, the command's word given. -/
  | doCommand (w : Word)
  /-- `LOAD_SEED <b0>, <b1>, ...`. -/
  | loadSeed (bytes : List Byte)
  /-- `POP -> x`. -/
  | pop
  /-- `READ <n> -> xs`. -/
  | readBytes (n : Nat)
  /-- `GET <n> -> xs`. -/
  | get (n : BitVec 24)
deriving DecidableEq, Repr

/-- The elementary operations lines expand to: one access, or one of the three that look at what a read returned. -/
inductive HostOp where
  /-- One access. -/
  | access (a : BusAction)
  /-- `WAIT_IDLE`. -/
  | waitIdle
  /-- `CHECK_OK`. -/
  | checkOk
  /-- `POP`. -/
  | pop
deriving DecidableEq, Repr

/-- The write of a command word (R111). -/
def writeCmd (w : Word) : BusAction := .write 4 0x04 w

/-- The access an operation makes, each time it makes one (R113). -/
def HostOp.nextAccess : HostOp → BusAction
  | .access a => a
  | .waitIdle => .read 4 0x08
  | .checkOk => .read 4 0x08
  | .pop => .read 4 0x0C

/-- What becomes of an operation after its access. -/
inductive HostVerdict where
  /-- The access is repeated. -/
  | again
  /-- The operation is complete and collected these bytes. -/
  | done (bytes : List Byte)
  /-- The program fails. -/
  | fails
deriving DecidableEq, Repr

/-- The verdict on the value the access returned (R113): `WAIT_IDLE` repeats "until bit 0 (BUSY) reads 0", for
`CHECK_OK` "the program fails if bits 11:8 (ERR) are not 0", `POP` repeats "until bit 8 (VALID) reads 1; x = bits 7:0".
An admitted read always returns a value (notes/assumptions/16.md). -/
def HostOp.judge : HostOp → Option Word → HostVerdict
  | .access _, _ => .done []
  | .waitIdle, some v => if v.getLsbD 0 then .again else .done []
  | .checkOk, some v => if v.extractLsb' 8 4 = 0 then .done [] else .fails
  | .pop, some v => if v.getLsbD 8 then .done [v.extractLsb' 0 8] else .again
  | .waitIdle, none => .fails
  | .checkOk, none => .fails
  | .pop, none => .fails

/-- `DO <cmd>`: "<cmd> then WAIT_IDLE then CHECK_OK" (R113). -/
def doOps (w : Word) : List HostOp := [.access (writeCmd w), .waitIdle, .checkOk]

/-- The expansion of a line (R113). -/
def HostLine.expand : HostLine → List HostOp
  | .bus a => [.access a]
  | .waitIdle => [.waitIdle]
  | .checkOk => [.checkOk]
  | .doCommand w => doOps w
  | .loadSeed bytes =>
    doOps (commandWord 0x2 0) ++ bytes.flatMap fun b => doOps (commandWord 0x3 (b.setWidth 28))
  | .pop => [.pop]
  | .readBytes n => List.replicate n .pop
  | .get n =>
    .access (writeCmd (commandWord 0x5 (n.setWidth 28))) :: List.replicate n.toNat .pop ++ [.waitIdle, .checkOk]

/-- The bytes an operation collects and the accesses left after it, if the accesses begin with a whole performance of
it. -/
def HostOp.take (o : HostOp) : List Access → Option (List Byte × List Access)
  | [] => none
  | (a, v) :: rest =>
    if a = o.nextAccess then
      match o.judge v with
      | .again => o.take rest
      | .done bytes => some (bytes, rest)
      | .fails => none
    else none

/-- The same for operations in order. -/
def takeOps : List HostOp → List Access → Option (List Byte × List Access)
  | [], ts => some ([], ts)
  | o :: os, ts =>
    match o.take ts with
    | none => none
    | some (bytes, rest) => (takeOps os rest).map fun r => (bytes ++ r.1, r.2)

/-- The bytes a line collects and the accesses left after it, if the accesses begin with an expansion of the line
(R113). -/
def HostLine.take (l : HostLine) (ts : List Access) : Option (List Byte × List Access) := takeOps l.expand ts

/-- The bytes a whole host program collects, if the accesses are exactly its expansion (R110, R114). -/
def runLines : List HostLine → List Access → Option (List Byte)
  | [], [] => some []
  | [], _ :: _ => none
  | l :: ls, ts =>
    match l.take ts with
    | none => none
    | some (bs, rest) => (runLines ls rest).map fun more => bs ++ more

end Sys2Proof.Machine
end

