-- ==== Sys2Proof/Machine/Aes.lean ====
section
/-! DEFINITION. AES of FIPS 197, the value `BLOCK_ENCRYPT` takes on this hardware (00_scope.md R9, D5, I2). The cipher's
internals are out of the spec's scope (R5): this text is PRESUMED, from general knowledge of FIPS 197, and no step of
the machine uses it. It gives the named property `CipherIsAes` its meaning, which a claim about specific output bytes
assumes. notes/assumptions/3.md. -/

namespace Sys2Proof.Machine

/-- The S-box, one number a row: row `x` holds the images of `16x .. 16x+15`, the first in the highest byte. -/
def aesSboxRows : List Nat :=
  [0x637c777bf26b6fc53001672bfed7ab76,
   0xca82c97dfa5947f0add4a2af9ca472c0,
   0xb7fd9326363ff7cc34a5e5f171d83115,
   0x04c723c31896059a071280e2eb27b275,
   0x09832c1a1b6e5aa0523bd6b329e32f84,
   0x53d100ed20fcb15b6acbbe394a4c58cf,
   0xd0efaafb434d338545f9027f503c9fa8,
   0x51a3408f929d38f5bcb6da2110fff3d2,
   0xcd0c13ec5f974417c4a77e3d645d1973,
   0x60814fdc222a908846eeb814de5e0bdb,
   0xe0323a0a4906245cc2d3ac629195e479,
   0xe7c8376d8dd54ea96c56f4ea657aae08,
   0xba78252e1ca6b4c6e8dd741f4bbd8b8a,
   0x703eb5664803f60e613557b986c11d9e,
   0xe1f8981169d98e949b1e87e9ce5528df,
   0x8ca1890dbfe6426841992d0fb054bb16]

/-- The S-box's image of a byte. -/
def aesSub (b : Byte) : Byte :=
  BitVec.ofNat 8 (aesSboxRows.getD (b.toNat / 16) 0 >>> (8 * (15 - b.toNat % 16)))

/-- Multiplication by `x` in the field of AES. -/
def aesXtime (b : Byte) : Byte := (b <<< 1) ^^^ (if b.msb then 0x1b else 0)

/-- The round constant `x^k`. -/
def aesRcon : Nat → Byte
  | 0 => 1
  | k + 1 => aesXtime (aesRcon k)

/-- The next key-schedule word, number `i`, from the words before it, newest first; `nk` is the key's word count. -/
def aesNextWord (nk i : Nat) (ws : List (List Byte)) : List Byte :=
  let prev := ws.headD []
  let mixed :=
    if i % nk = 0 then xorBytes ((prev.drop 1 ++ prev.take 1).map aesSub) [aesRcon (i / nk - 1), 0, 0, 0]
    else if 6 < nk ∧ i % nk = 4 then prev.map aesSub
    else prev
  xorBytes (ws.getD (nk - 1) []) mixed

/-- `n` more key-schedule words, from number `i` on, onto a list that is newest first. -/
def aesExpand (nk : Nat) : Nat → Nat → List (List Byte) → List (List Byte)
  | 0, _, ws => ws
  | n + 1, i, ws => aesExpand nk n (i + 1) (aesNextWord nk i ws :: ws)

/-- A byte sequence cut into `n` pieces of `k` bytes. -/
def aesPieces (k : Nat) : Nat → List Byte → List (List Byte)
  | 0, _ => []
  | n + 1, bs => bs.take k :: aesPieces k n (bs.drop k)

/-- The round keys, 16 bytes each, in order; a key of `nk` words has `nk + 7` of them. -/
def aesRoundKeys (key : List Byte) : List (List Byte) :=
  let nk := key.length / 4
  let words := aesExpand nk (4 * (nk + 7) - nk) nk (aesPieces 4 nk key).reverse
  aesPieces 16 (nk + 7) words.reverse.flatten

/-- ShiftRows on a state in index order, byte `4c + r` in row `r` of column `c`. -/
def aesShiftRows (st : List Byte) : List Byte :=
  (List.range 16).map fun k => st.getD (4 * ((k / 4 + k % 4) % 4) + k % 4) 0

/-- MixColumns on one column. -/
def aesMixColumn : List Byte → List Byte
  | [a, b, c, d] =>
    [aesXtime a ^^^ (aesXtime b ^^^ b) ^^^ c ^^^ d, a ^^^ aesXtime b ^^^ (aesXtime c ^^^ c) ^^^ d,
      a ^^^ b ^^^ aesXtime c ^^^ (aesXtime d ^^^ d), (aesXtime a ^^^ a) ^^^ b ^^^ c ^^^ aesXtime d]
  | other => other

/-- The rounds after the first key addition; the last has no MixColumns. -/
def aesRounds : List (List Byte) → List Byte → List Byte
  | [], st => st
  | [k], st => xorBytes (aesShiftRows (st.map aesSub)) k
  | k :: ks, st =>
    aesRounds ks (xorBytes ((aesPieces 4 4 (aesShiftRows (st.map aesSub))).map aesMixColumn).flatten k)

/-- AES encryption of one block under a key of 16, 24 or 32 bytes, byte 0 first (R9). -/
def aesEncrypt (key : List Byte) (block : Block) : Block :=
  match aesRoundKeys key with
  | [] => block
  | k :: ks => arrayOf 16 (aesRounds ks (xorBytes block.toList k))

/-- "The value this hardware takes is AES encryption ... with a 128-, 192- or 256-bit key" (R9). -/
def CipherIsAes : Prop :=
  ∀ (K : List Byte) (X : Block), K.length = 16 ∨ K.length = 24 ∨ K.length = 32 →
    Config.blockEncrypt K X = aesEncrypt K X

end Sys2Proof.Machine
end

