-- ==== Sys2Proof/Machine/HostRun.lean ====
section
/-! DEFINITION. A host program running beside the engine (00_scope.md R16, 30_encoding.md R114): the turns of the two
agents, for any `FIFO_DEPTH` (R8). Each turn is a step of the machine with that turn on its agenda. -/

namespace Sys2Proof.Machine

/-- The machine and the host that runs a program against it. What stands beside the machine is the host's, not the
engine's: notes/assumptions/20.md. -/
structure HostState where
  /-- The machine. -/
  machine : State
  /-- The operations still to perform, the current one first. -/
  program : List HostOp
  /-- The bytes collected so far, in order (R113). -/
  collected : List Byte
  /-- A `CHECK_OK` found an error: "the program fails" (R113). -/
  failed : Bool
deriving DecidableEq, Repr

/-- A host about to run the lines of a program (R110). -/
def HostState.start (s : State) (lines : List HostLine) : HostState :=
  { machine := s, program := lines.flatMap HostLine.expand, collected := [], failed := false }

/-- The value the host's access returned, if it returned one (R258). -/
def returnedValue (before after : State) : Option Word := (after.observed.drop before.observed.length).head?

/-- The host after the access of operation `o`, which left the machine in `t`; `rest` follows `o`. -/
def HostState.judged (c : HostState) (o : HostOp) (rest : List HostOp) (t : State) : HostState :=
  match o.judge (returnedValue c.machine t) with
  | .again => { c with machine := t }
  | .done bytes => { c with machine := t, program := rest, collected := c.collected ++ bytes }
  | .fails => { c with machine := t, failed := true }

/-- The host's turn: the access of the current operation, as one step of the machine. None when the program is at its
end or has failed, or when the access has no step (R66). -/
def hostTurn (depth : Nat) (c : HostState) : Option HostState :=
  match c.failed, c.program with
  | true, _ => none
  | false, [] => none
  | false, o :: rest =>
    match stepAt depth (c.machine.withTurn (.host o.nextAccess)) with
    | .next t => some (c.judged o rest t)
    | .fault _ => none
    | .refused _ => none

/-- The engine's turn: `PUSH` or `DONE`, if one is enabled (R200, R201). -/
def engineTurn (depth : Nat) (c : HostState) : Option HostState :=
  if pushEnabled depth c.machine.engine || doneEnabled c.machine.engine then
    match stepAt depth (c.machine.withTurn .engine) with
    | .next t => some { c with machine := t }
    | .fault _ => none
    | .refused _ => none
  else none

end Sys2Proof.Machine
end

