-- ==== Sys2Proof/Safety.lean ====
section
/-! DEFINITION. What the statements speak of: the invariants of every reachable state (10_state.md R46), the outcome of
a command by acceptance (44_commands_control.md R227), the bytes a run generates and delivers (20_memory.md R71,
43_commands_output.md R211), and the weakly fair runs of a host program beside the engine (00_scope.md R16). -/

namespace Sys2Proof.Machine

/-! ### Invariants -/

/-- The table is a permutation of 0..255 (R41, R126). -/
def IsPermutation (t : Table) : Prop := t.toList.Perm ((List.range 256).map (BitVec.ofNat 8))

/-- The invariants of R46, items 2 to 5, 7 and 8, for a FIFO of `depth` bytes, and the bound R43 puts on `PEND`. Items
1 and 6, the ranges of `VARIANT` and `ERR`, hold by their types (notes/assumptions/13.md). -/
structure EngineInv (depth : Nat) (e : Engine) : Prop where
  /-- `SLEN` ≤ 256. -/
  slen_le : e.slen ≤ Config.seedMax
  /-- `|FIFO|` ≤ `FIFO_DEPTH`. -/
  fifo_le : e.fifo.length ≤ depth
  /-- `PEND ≠ []` implies `BUSY = 1`. -/
  pend_busy : e.pend ≠ [] → e.busy = true
  /-- `PEND ≠ []` implies `SEEDED = 1`. -/
  pend_seeded : e.pend ≠ [] → e.seeded = true
  /-- `|PEND|` < 2^24. -/
  pend_lt : e.pend.length < 2 ^ 24
  /-- A seeded legacy generator's table is a permutation. -/
  permutation : e.variant.keyLen? = none → e.seeded = true → IsPermutation e.legacy.s
  /-- A seeded counter DRBG's unused key bytes are 0. -/
  unused_key : ∀ kl, e.variant.keyLen? = some kl → e.seeded = true →
    ∀ k, kl ≤ k → (h : k < 32) → e.drbg.key[k] = 0

/-- The values of R47, for every element but `BUSY`. -/
structure ResetValues (e : Engine) : Prop where
  variant_ctr128 : e.variant = .ctr128
  not_seeded : e.seeded = false
  no_error : e.err = .noError
  slen_zero : e.slen = 0
  seedBuf_zero : ∀ k, (h : k < 256) → e.seedBuf[k] = 0
  table_zero : ∀ k, (h : k < 256) → e.legacy.s[k] = 0
  i_zero : e.legacy.i = 0
  j_zero : e.legacy.j = 0
  key_zero : ∀ k, (h : k < 32) → e.drbg.key[k] = 0
  v_zero : ∀ k, (h : k < 16) → e.drbg.v[k] = 0
  pend_empty : e.pend = []
  fifo_empty : e.fifo = []

/-! ### Acceptance -/

/-- The recording rule, written as a value: `ERR` holds the first error (R243). -/
def recordError (c : ErrCode) (e : Engine) : Engine :=
  { e with err := if e.err = .noError then c else e.err }

/-- A row of R227's summary for a command other than CLEAR_ERR and SOFT_RESET: `done` is the engine after the
command's own `Execute` part. -/
def ordinaryCommand (legal : Bool) (e done : Engine) : Engine :=
  if legal = false then recordError .illegalOperand e
  else if e.err ≠ .noError then e
  else if e.busy = true then { e with err := .busyErr }
  else done

/-- A row of R227's summary for CLEAR_ERR and SOFT_RESET. -/
def controlCommand (legal : Bool) (e done : Engine) : Engine :=
  if legal = false then recordError .illegalOperand e else done

/-- The command an instruction performs: a write to CMD performs its word's (R91, R111). -/
def commandOf : Instr → Instr
  | .wrCmd w => decodeCommand w
  | i => i

/-- The seven commands that `ERR ≠ 0` blocks and that `BUSY = 1` refuses (R225 steps 5 and 6). -/
def isOrdinary : Instr → Bool
  | .nop _ | .select _ _ | .seedClear _ | .seedByte _ _ | .seed _ | .produce _ _ | .discard _ => true
  | _ => false

/-- Admitted accesses (R66): 32 bits, an offset that is a multiple of 4, inside the window. RESET is no access. -/
def admitted : BusAction → Bool
  | .read width offset => width == 4 && offset % 4 == 0 && decide (offset < 64)
  | .write width offset _ => width == 4 && offset % 4 == 0 && decide (offset < 64)
  | .reset => true

/-! ### Engine runs -/

/-- `k` turns of the engine with no host action between them. -/
def engineRun (depth : Nat) : Nat → Engine → Engine
  | 0, e => e
  | k + 1, e => engineRun depth k (engineStep depth e)

/-- Quiescent (R46): `BUSY = 0`. -/
def Quiescent (e : Engine) : Prop := e.busy = false

/-! ### Blocks of the DRBG -/

/-- `inc` applied `k` times. -/
def incTimes : Nat → Block → Block
  | 0, v => v
  | k + 1, v => incTimes k (inc v)

/-- Byte `m` of the blocks encrypted under `K` from value register `v` on: byte `m mod 16` of the encryption of the
value after `m / 16 + 1` increments (R64, R142, R149). -/
def streamByte (E : Cipher) (K : List Byte) (v : Block) (m : Nat) : Byte :=
  (E K (incTimes (m / 16 + 1) v)).toList.getD (m % 16) 0

/-! ### Steps of the legacy generator -/

/-- The legacy state `m` steps on (R122, R123). -/
def legacyAfter : Nat → LegacyState → LegacyState
  | 0, st => st
  | m + 1, st => legacyAfter m (rc4Step st).2

/-! ### Streams (R71, R211) -/

/-- The instruction the host's next action is, if the host is next and the action is admitted. -/
def nextInstr (s : State) : Option Instr :=
  match s.agenda with
  | .host a :: _ => (decodeAction a).toOption
  | _ => none

/-- The bytes an instruction generates: PRODUCE's, if it executes (R190). -/
def generatedBy (i : Instr) (e : Engine) : List Byte :=
  match commandOf i with
  | .produce n rest =>
    if rest = 0 ∧ e.err = .noError ∧ e.busy = false ∧ e.seeded = true then (generate n.toNat e).1 else []
  | _ => []

/-- The bytes an instruction delivers to the host: the one a read of OUT pops (R203). -/
def deliveredBy (i : Instr) (e : Engine) : List Byte :=
  match i with
  | .rdOut => e.fifo.take 1
  | _ => []

/-- The commands and the event that drop output (R285). -/
def dropsOutput (i : Instr) : Bool :=
  match commandOf i with
  | .select _ _ | .seed _ | .discard _ | .softReset _ | .reset => true
  | _ => false

/-- A run of the machine with a FIFO of `depth` bytes in which no command drops output, with the bytes it generates and
the bytes it delivers. -/
inductive StreamRun (depth : Nat) : State → List Byte → List Byte → State → Prop where
  | refl (s : State) : StreamRun depth s [] [] s
  /-- A turn of the engine, or of nobody. -/
  | engineTurn {s t u : State} {g d : List Byte} :
      nextInstr s = none → stepAt depth s = .next t → StreamRun depth t g d u → StreamRun depth s g d u
  /-- A turn of the host. -/
  | hostTurn {s t u : State} {g d : List Byte} {i : Instr} :
      nextInstr s = some i → dropsOutput i = false → stepAt depth s = .next t → StreamRun depth t g d u →
      StreamRun depth s (generatedBy i s.engine ++ g) (deliveredBy i s.engine ++ d) u

/-! ### Runs of a host program beside the engine (R16, R114, R258) -/

/-- A finite part of a run, with the turns taken in order. -/
inductive HostPath (depth : Nat) : HostState → List Turn → HostState → Prop where
  /-- No turn. -/
  | refl (c : HostState) : HostPath depth c [] c
  /-- The host's turn. -/
  | host {c d e : HostState} {o : HostOp} {rest : List HostOp} {turns : List Turn} :
      c.program = o :: rest → hostTurn depth c = some d → HostPath depth d turns e →
      HostPath depth c (.host o.nextAccess :: turns) e
  /-- The engine's turn. -/
  | engine {c d e : HostState} {turns : List Turn} :
      engineTurn depth c = some d → HostPath depth d turns e → HostPath depth c (.engine :: turns) e

/-- The host's actions among the turns. -/
def hostActions (turns : List Turn) : List BusAction :=
  turns.filterMap fun
    | .host a => some a
    | .engine => none

/-- The host program has no further access: its operations are performed, or it has failed (R113, R258;
notes/assumptions/20.md). -/
def HostState.NoFurtherAccess (c : HostState) : Prop := c.program = [] ∨ c.failed = true

/-- The end of a run: "the host program has no further access and the engine is quiescent (`BUSY = 0`, so `PEND = []`)"
(R258). -/
def HostState.Ended (c : HostState) : Prop := c.NoFurtherAccess ∧ Quiescent c.machine.engine

/-- The observation of a run from `s` to `c`: "the sequence of values the host's reads returned" (R258). -/
def observation (s : State) (c : HostState) : List Word := c.machine.observed.drop s.observed.length

/-- A whole run: "at each point of a run, any enabled step of either agent may be taken" (R16), and it stands still only
where neither agent has a step (notes/assumptions/9.md). To stand still is not to have ended, which is
`HostState.Ended`: a run also stands still with the FIFO full, bytes pending and nobody to read them. -/
def IsRun (depth : Nat) (run : Nat → HostState) : Prop :=
  ∀ n, hostTurn depth (run n) = some (run (n + 1)) ∨ engineTurn depth (run n) = some (run (n + 1)) ∨
    (hostTurn depth (run n) = none ∧ engineTurn depth (run n) = none ∧ run (n + 1) = run n)

/-- Weak fairness (R16, R201): no engine step, neither `PUSH` nor `DONE`, stays enabled for ever without being taken. -/
def WeaklyFair (depth : Nat) (run : Nat → HostState) : Prop :=
  (∀ n, ∃ m, n ≤ m ∧ (pushEnabled depth (run m).machine.engine = true →
    engineTurn depth (run m) = some (run (m + 1)))) ∧
  (∀ n, ∃ m, n ≤ m ∧ (doneEnabled (run m).machine.engine = true → engineTurn depth (run m) = some (run (m + 1))))

/-- A weakly fair run. -/
structure FairRun (depth : Nat) (run : Nat → HostState) : Prop where
  isRun : IsRun depth run
  weaklyFair : WeaklyFair depth run

end Sys2Proof.Machine
end

