-- ==== Sys2Proof/Certificates/Slice0/Obligations.lean ====
section
/-! DEFINITION. The statements for the provers. A read "returns" its value by appending it to `State.observed`, and a
run's turns are `State.agenda`: both are the model's own (notes/assumptions/1.md, notes/assumptions/2.md). `depth` is
the parameter `FIFO_DEPTH` (R8), and the statements that speak of it hold for every value, within the bounds they name.
-/

open Sys2Proof Sys2Proof.Machine

/-! ### Reset -/

/-- R47: RESET and, except `BUSY`, SOFT_RESET load the reset values, in any state; so does the state after reset.
`BUSY` is 0 after RESET, and 1 after SOFT_RESET until `DONE`; `ID` reads its constant. -/
def Obligations.ResetActionsLoadResetValues : Prop :=
  (ResetValues State.reset.engine ∧ State.reset.engine.busy = false) ∧
  ∀ s : State,
    (∃ e, exec .reset s = .next (s.withEngine e) ∧ ResetValues e ∧ e.busy = false) ∧
    (∃ e, exec (.softReset 0) s = .next (s.withEngine e) ∧ ResetValues e ∧ e.busy = true ∧
      ∀ depth, (engineStep depth e).busy = false) ∧
    exec .rdId s = .next (s.returnRead 0x76626967)

/-- V-R1, R270, R273: what the host reads in the state after reset, in which no engine step is enabled. -/
def Obligations.HostReadsAfterReset : Prop :=
  exec .rdId .reset = .next (State.reset.returnRead 0x76626967) ∧
  exec .rdStatus .reset = .next (State.reset.returnRead 0x00000008) ∧
  exec .rdCmd .reset = .next (State.reset.returnRead 0) ∧
  exec .rdOut .reset = .next (State.reset.returnRead 0) ∧
  exec .rdOutcnt .reset = .next (State.reset.returnRead 0) ∧
  exec .rdSeedlen .reset = .next (State.reset.returnRead 0) ∧
  exec .rdRemain .reset = .next (State.reset.returnRead 0) ∧
  exec .rdReserved1C .reset = .next (State.reset.returnRead 0) ∧
  exec .rdReserved3C .reset = .next (State.reset.returnRead 0) ∧
  (∀ depth, pushEnabled depth Engine.reset = false) ∧ doneEnabled Engine.reset = false

/-- R272: SOFT_RESET has the effect of RESET except that it leaves `BUSY` = 1, which the `DONE` step clears. -/
def Obligations.SoftResetIsResetButBusy : Prop :=
  ∀ s : State, ∃ e, exec .reset s = .next (s.withEngine e) ∧
    exec (.softReset 0) s = .next (s.withEngine { e with busy := true }) ∧
    doneEnabled { e with busy := true } = true ∧ ∀ depth, engineStep depth { e with busy := true } = e

/-! ### Encoding -/

/-- R90, R91, R96: decoding a command's word gives the command back, and every word is the word of the one command it
decodes to, with all its operand bits. -/
def Obligations.CommandWordsRoundTrip : Prop :=
  (∀ (i : Instr) (w : Word), encodeCommand i = some w → decodeCommand w = i) ∧
  (∀ w : Word, encodeCommand (decodeCommand w) = some w)

/-- Every instruction's bits, in the opcode table's numbering, decode to it. The numbering of a write's direction and
value and of RESET is the model's choice (notes/assumptions/7.md). -/
def Obligations.TableWordsRoundTrip : Prop :=
  ∀ i : Instr, decodeTableWord (encode i).1 (encode i).2 = some i

/-- R98: the encoding examples. The illegal ones are the errors they name, recorded in the state after reset. -/
def Obligations.ExampleWordsDecode : Prop :=
  decodeCommand 0x10000002 = .select Variant.ctr128.code 0 ∧
  decodeCommand 0x3000004B = .seedByte 0x4B 0 ∧
  decodeCommand 0x40000000 = .seed 0 ∧
  decodeCommand 0x50001000 = .produce 4096 0 ∧
  decodeCommand 0x50FFFFFF = .produce 16777215 0 ∧
  (∃ r, decodeCommand 0x51000000 = .produce 0 r ∧ r ≠ 0) ∧
  decodeCommand 0x10000005 = .select 5 0 ∧
  (∃ r, decodeCommand 0x30000100 = .seedByte 0 r ∧ r ≠ 0) ∧
  decodeCommand 0x00000001 = .nop 1 ∧
  (∀ w, w = 0x51000000 ∨ w = 0x10000005 ∨ w = 0x30000100 ∨ w = 0x00000001 →
    acceptCmd w .reset = { Engine.reset with err := .illegalOperand }) ∧
  decodeCommand 0x70000000 = .reserved7 0 ∧
  acceptCmd 0x70000000 .reset = { Engine.reset with err := .illegalCmd }

/-- R96: a word selects a row exactly when `(w AND mask) = match`, with `w[2:0] ≤ 4` for SELECT. -/
def Obligations.OpcodeMapSelectsRows : Prop :=
  ∀ w : Word,
    (w &&& 0xFFFFFFFF = 0x00000000 ↔ decodeCommand w = .nop 0) ∧
    (w &&& 0xFFFFFFF8 = 0x10000000 ∧ (w.extractLsb' 0 3).toNat ≤ 4 ↔
      ∃ g : Variant, decodeCommand w = .select g.code 0) ∧
    (w &&& 0xFFFFFFFF = 0x20000000 ↔ decodeCommand w = .seedClear 0) ∧
    (w &&& 0xFFFFFF00 = 0x30000000 ↔ ∃ b, decodeCommand w = .seedByte b 0) ∧
    (w &&& 0xFFFFFFFF = 0x40000000 ↔ decodeCommand w = .seed 0) ∧
    (w &&& 0xFF000000 = 0x50000000 ↔ ∃ n, decodeCommand w = .produce n 0) ∧
    (w &&& 0xFFFFFFFF = 0x60000000 ↔ decodeCommand w = .discard 0) ∧
    (w &&& 0xF0000000 = 0x70000000 ↔ ∃ a, decodeCommand w = .reserved7 a) ∧
    (w &&& 0xF0000000 = 0x80000000 ↔ ∃ a, decodeCommand w = .reserved8 a) ∧
    (w &&& 0xF0000000 = 0x90000000 ↔ ∃ a, decodeCommand w = .reserved9 a) ∧
    (w &&& 0xF0000000 = 0xA0000000 ↔ ∃ a, decodeCommand w = .reservedA a) ∧
    (w &&& 0xF0000000 = 0xB0000000 ↔ ∃ a, decodeCommand w = .reservedB a) ∧
    (w &&& 0xF0000000 = 0xC0000000 ↔ ∃ a, decodeCommand w = .reservedC a) ∧
    (w &&& 0xF0000000 = 0xD0000000 ↔ ∃ a, decodeCommand w = .reservedD a) ∧
    (w &&& 0xFFFFFFFF = 0xE0000000 ↔ decodeCommand w = .clearErr 0) ∧
    (w &&& 0xFFFFFFFF = 0xF0000000 ↔ decodeCommand w = .softReset 0)

/-- R92, R224: an operand is legal exactly when its value is in its format's range, and exactly then the command it
belongs to is well formed. -/
def Obligations.OperandLegalByFormat : Prop :=
  ∀ (op : BitVec 4) (a : BitVec 28), definedOpcode op = true →
    (operandLegal op a = true ↔
      if op = 1 then a.toNat ≤ 4 else if op = 3 then a.toNat < 256 else if op = 5 then a.toNat < 2 ^ 24
      else a.toNat = 0) ∧
    (decodeCommand (commandWord op a)).wellFormed = operandLegal op a

/-- R95, R111: the assembler's words, SELECT's also variant by variant, and its refusal of a variant, byte or count out
of range. -/
def Obligations.AssemblerWords : Prop :=
  assemble (.nop 0) = some 0x00000000 ∧
  (∀ g : Variant, assemble (.select g.code 0) = some (0x10000000 ||| g.code.setWidth 32)) ∧
  assemble (.select Variant.legacy.code 0) = some 0x10000000 ∧
  assemble (.select Variant.legacyDrop.code 0) = some 0x10000001 ∧
  assemble (.select Variant.ctr128.code 0) = some 0x10000002 ∧
  assemble (.select Variant.ctr192.code 0) = some 0x10000003 ∧
  assemble (.select Variant.ctr256.code 0) = some 0x10000004 ∧
  assemble (.seedClear 0) = some 0x20000000 ∧
  (∀ b : Byte, assemble (.seedByte b 0) = some (0x30000000 ||| b.setWidth 32)) ∧
  assemble (.seed 0) = some 0x40000000 ∧
  (∀ n : BitVec 24, assemble (.produce n 0) = some (0x50000000 ||| n.setWidth 32)) ∧
  assemble (.discard 0) = some 0x60000000 ∧
  assemble (.clearErr 0) = some 0xE0000000 ∧
  assemble (.softReset 0) = some 0xF0000000 ∧
  (∀ i : Instr, i.wellFormed = false → assemble i = none)

/-! ### Acceptance -/

/-- R225: the steps of `AcceptCmd(w)`, in their order, for every word and state. -/
def Obligations.AcceptCmdFollowsItsSteps : Prop :=
  ∀ (w : Word) (s : State),
    let op := w.toNat / 2 ^ 28
    let a := w.toNat % 2 ^ 28
    let e := s.engine
    exec (.wrCmd w) s = .next (s.withEngine (
      if op ∉ [0x0, 0x1, 0x2, 0x3, 0x4, 0x5, 0x6, 0xE, 0xF] then recordError .illegalCmd e
      else if ¬ (if op = 1 then a / 2 ^ 3 = 0 ∧ a % 2 ^ 3 ≤ 4 else if op = 3 then a / 2 ^ 8 = 0
        else if op = 5 then a / 2 ^ 24 = 0 else a = 0) then recordError .illegalOperand e
      else if op = 0xF then softResetEffect e
      else if op = 0xE then clearErrEffect e
      else if e.err ≠ .noError then e
      else if e.busy = true then { e with err := .busyErr }
      else executeCommand (opcodeField w) (operandField w) e))

/-- R91, R111, R225: writing a word to CMD does what the command it decodes to does, in every state. -/
def Obligations.WrCmdRunsDecodedCommand : Prop :=
  ∀ (w : Word) (s : State), exec (.wrCmd w) s = exec (decodeCommand w) s

/-- R99: a word with a reserved opcode, whatever its operand, raises ILLEGAL_CMD and has no other effect. -/
def Obligations.ReservedOpcodesRecordIllegalCmd : Prop :=
  ∀ (a : BitVec 28) (s : State),
    let out : Host.Outcome State Fault Refusal := .next (s.withEngine (recordError .illegalCmd s.engine))
    exec (.reserved7 a) s = out ∧ exec (.reserved8 a) s = out ∧ exec (.reserved9 a) s = out ∧
    exec (.reservedA a) s = out ∧ exec (.reservedB a) s = out ∧ exec (.reservedC a) s = out ∧
    exec (.reservedD a) s = out

/-- R100: a defined opcode whose operand breaks its format raises ILLEGAL_OPERAND and has no other effect, CLEAR_ERR
and SOFT_RESET included. -/
def Obligations.IllegalOperandIsRecorded : Prop :=
  ∀ (i : Instr) (s : State), i.wellFormed = false →
    exec i s = .next (s.withEngine (recordError .illegalOperand s.engine))

/-- R225 step 6, R241 code 3, R280: a command other than CLEAR_ERR and SOFT_RESET written while `BUSY` = 1 records
BUSY, which is code 3, and has no other effect. -/
def Obligations.BusyCommandIsRefused : Prop :=
  ErrCode.busyErr.code = 3 ∧
  ∀ (i : Instr) (s : State), isOrdinary (commandOf i) = true → (commandOf i).wellFormed = true →
    s.engine.err = .noError → s.engine.busy = true →
    exec i s = .next (s.withEngine { s.engine with err := .busyErr })

/-- R245: while `ERR ≠ 0` every command except CLEAR_ERR and SOFT_RESET is ignored and changes no state, `ERR`
included; reads are not affected, so `OUT` still drains. -/
def Obligations.PendingErrorStopsCommands : Prop :=
  ∀ s : State, s.engine.err ≠ .noError →
    (∀ i, isOrdinary (commandOf i) = true → exec i s = .next s) ∧
    (∀ w : Word, decodeCommand w ≠ .clearErr 0 → decodeCommand w ≠ .softReset 0 → exec (.wrCmd w) s = .next s) ∧
    (∀ b rest, s.engine.fifo = b :: rest →
      exec .rdOut s = .next ((s.withEngine { s.engine with fifo := rest }).returnRead (0x100 ||| b.setWidth 32)))

/-! ### The commands, each in every state -/

/-- R171: NOP, the word 0, sets `BUSY` and nothing else. From reset, NOP and the engine's turn leave `STATUS` = 8. -/
def Obligations.NopSetsBusyOnly : Prop :=
  encodeCommand (.nop 0) = some 0x00000000 ∧
  (∀ (a : BitVec 28) (s : State), exec (.nop a) s =
    .next (s.withEngine (ordinaryCommand (a == 0) s.engine { s.engine with busy := true }))) ∧
  (∃ t, exec (.nop 0) State.reset = .next t ∧ ∀ depth, statusWord (engineStep depth t.engine) = 0x00000008)

/-- R95, R172: SELECT `v` sets `VARIANT`, clears `SEEDED`, empties the FIFO and sets `BUSY`; the seed buffer and the
generator arrays stay. Code 0 selects LEGACY, 1 LEGACY_DROP, 2 CTR128, 3 CTR192 and 4 CTR256, and codes 5 to 7 raise
ILLEGAL_OPERAND. -/
def Obligations.SelectChoosesVariant : Prop :=
  (Variant.legacy.code = 0 ∧ Variant.legacyDrop.code = 1 ∧ Variant.ctr128.code = 2 ∧ Variant.ctr192.code = 3 ∧
    Variant.ctr256.code = 4) ∧
  (∀ (g : Variant) (r : BitVec 25) (s : State), exec (.select g.code r) s =
    .next (s.withEngine (ordinaryCommand (r == 0) s.engine
      { s.engine with variant := g, seeded := false, fifo := [], busy := true }))) ∧
  (∀ (v : BitVec 3) (r : BitVec 25) (s : State), 5 ≤ v.toNat →
    exec (.select v r) s = .next (s.withEngine (recordError .illegalOperand s.engine))) ∧
  encodeCommand (.select Variant.ctr256.code 0) = some 0x10000004

/-- R173: SEED_CLEAR sets `SLEN` to 0 and sets `BUSY`; the bytes of `SEEDBUF`, `SEEDED` and the generator stay. -/
def Obligations.SeedClearEmptiesSeedBuffer : Prop :=
  encodeCommand (.seedClear 0) = some 0x20000000 ∧
  ∀ (a : BitVec 28) (s : State), exec (.seedClear a) s =
    .next (s.withEngine (ordinaryCommand (a == 0) s.engine { s.engine with slen := 0, busy := true }))

/-- R174: SEED_BYTE `b` writes `SEEDBUF[SLEN]`, increments `SLEN` and sets `BUSY`; with 256 bytes in the buffer it
raises SEED_OVF and stores nothing. -/
def Obligations.SeedByteAppendsByte : Prop :=
  (∀ b : Byte, encodeCommand (.seedByte b 0) = some (0x30000000 ||| b.setWidth 32)) ∧
  ∀ (b : Byte) (r : BitVec 20) (s : State),
    (s.engine.slen = 256 → exec (.seedByte b r) s =
      .next (s.withEngine (ordinaryCommand (r == 0) s.engine { s.engine with err := .seedOvf }))) ∧
    (s.engine.slen < 256 → ∃ buf : Vector Byte 256,
      (∀ k, (h : k < 256) → buf[k] = if k = s.engine.slen then b else s.engine.seedBuf[k]) ∧
      exec (.seedByte b r) s = .next (s.withEngine (ordinaryCommand (r == 0) s.engine
        { s.engine with seedBuf := buf, slen := s.engine.slen + 1, busy := true })))

/-- R175: SEED seeds the selected generator from the first `SLEN` bytes of the seed buffer, or raises SEED_LEN. -/
def Obligations.SeedSeedsSelectedGenerator : Prop :=
  ∀ (a : BitVec 28) (s : State),
    let e := s.engine
    let key := e.seedBuf.toList.take e.slen
    let refused : Host.Outcome State Fault Refusal :=
      .next (s.withEngine (ordinaryCommand (a == 0) e { e with err := .seedLen }))
    (e.slen = 0 → exec (.seed a) s = refused) ∧
    (∀ kl, e.variant.keyLen? = some kl → 16 + kl < e.slen → exec (.seed a) s = refused) ∧
    (e.variant = .legacy → 0 < e.slen → exec (.seed a) s = .next (s.withEngine (ordinaryCommand (a == 0) e
      { e with legacy := rc4Seed key, seeded := true, fifo := [], pend := [], busy := true }))) ∧
    (e.variant = .legacyDrop → 0 < e.slen → exec (.seed a) s = .next (s.withEngine (ordinaryCommand (a == 0) e
      { e with legacy := rc4Discard 3072 (rc4Seed key), seeded := true, fifo := [], pend := [], busy := true }))) ∧
    (∀ kl, e.variant.keyLen? = some kl → 0 < e.slen → e.slen ≤ 16 + kl →
      exec (.seed a) s = .next (s.withEngine (ordinaryCommand (a == 0) e
        { e with drbg := drbgInstantiate cipher kl key, seeded := true, fifo := [], pend := [], busy := true })))

/-- R190: PRODUCE `n` puts the generator's next `n` bytes in `PEND` and advances the generator, or raises NOT_SEEDED.
With `n = 0` a legacy generator is unchanged and a counter DRBG still performs its update. -/
def Obligations.ProduceFillsPend : Prop :=
  ∀ (n : BitVec 24) (r : BitVec 4) (s : State),
    let e := s.engine
    (e.seeded = false → exec (.produce n r) s =
      .next (s.withEngine (ordinaryCommand (r == 0) e { e with err := .notSeeded }))) ∧
    (e.seeded = true → e.variant.keyLen? = none → exec (.produce n r) s =
      .next (s.withEngine (ordinaryCommand (r == 0) e { e with
        legacy := (rc4Produce n.toNat e.legacy).2, pend := (rc4Produce n.toNat e.legacy).1, busy := true }))) ∧
    (∀ kl, e.seeded = true → e.variant.keyLen? = some kl → exec (.produce n r) s =
      .next (s.withEngine (ordinaryCommand (r == 0) e { e with
        drbg := (drbgGenerate cipher kl n.toNat e.drbg).2, pend := (drbgGenerate cipher kl n.toNat e.drbg).1,
        busy := true }))) ∧
    rc4Produce 0 e.legacy = ([], e.legacy) ∧
    (∀ kl, drbgGenerate cipher kl 0 e.drbg = ([], drbgUpdate cipher kl (zeros (16 + kl)) e.drbg))

/-- R191: DISCARD empties the FIFO and sets `BUSY`; the generator state is not changed. -/
def Obligations.DiscardEmptiesFifo : Prop :=
  encodeCommand (.discard 0) = some 0x60000000 ∧
  ∀ (a : BitVec 28) (s : State), exec (.discard a) s =
    .next (s.withEngine (ordinaryCommand (a == 0) s.engine { s.engine with fifo := [], busy := true }))

/-- R220: CLEAR_ERR sets `ERR` to 0, in every state, and neither sets nor waits for `BUSY`; with a non-zero operand it
records ILLEGAL_OPERAND if no error is pending and clears nothing. -/
def Obligations.ClearErrClearsError : Prop :=
  encodeCommand (.clearErr 0) = some 0xE0000000 ∧
  (∀ (a : BitVec 28) (s : State), exec (.clearErr a) s =
    .next (s.withEngine (controlCommand (a == 0) s.engine { s.engine with err := .noError }))) ∧
  (∀ s : State, statusWord s.engine = 0x00000408 →
    ∃ t, exec (.wrCmd 0xE0000000) s = .next t ∧ statusWord t.engine = 0x00000008)

/-- R221: SOFT_RESET leaves the reset state with `BUSY` = 1, from every state; with a non-zero operand nothing is reset
and ILLEGAL_OPERAND is recorded if no error is pending. `STATUS` reads 9 until `DONE`, then 8. -/
def Obligations.SoftResetReturnsToReset : Prop :=
  encodeCommand (.softReset 0) = some 0xF0000000 ∧
  (∀ (a : BitVec 28) (s : State), exec (.softReset a) s =
    .next (s.withEngine (controlCommand (a == 0) s.engine { Engine.reset with busy := true }))) ∧
  ResetValues { Engine.reset with busy := true } ∧
  statusWord { Engine.reset with busy := true } = 0x00000009 ∧
  ∀ depth, statusWord (engineStep depth { Engine.reset with busy := true }) = 0x00000008

/-! ### Bus reads and writes -/

/-- R205, R209: `RD ID` returns the constant; `RD CMD` and reads of reserved offsets return 0; no side effect. -/
def Obligations.ConstantReads : Prop :=
  ∀ s : State,
    let zero : Host.Outcome State Fault Refusal := .next (s.returnRead 0x00000000)
    exec .rdId s = .next (s.returnRead 0x76626967) ∧ exec .rdCmd s = zero ∧
    exec .rdReserved1C s = zero ∧ exec .rdReserved20 s = zero ∧ exec .rdReserved24 s = zero ∧
    exec .rdReserved28 s = zero ∧ exec .rdReserved2C s = zero ∧ exec .rdReserved30 s = zero ∧
    exec .rdReserved34 s = zero ∧ exec .rdReserved38 s = zero ∧ exec .rdReserved3C s = zero

/-- R33, R204: `RD STATUS` returns the number its fields spell and has no side effect. The codes in the `ERR` field are
those of R241's table. -/
def Obligations.StatusReadsItsFields : Prop :=
  (ErrCode.noError.code = 0 ∧ ErrCode.illegalCmd.code = 1 ∧ ErrCode.illegalOperand.code = 2 ∧
    ErrCode.busyErr.code = 3 ∧ ErrCode.notSeeded.code = 4 ∧ ErrCode.seedLen.code = 5 ∧ ErrCode.seedOvf.code = 6) ∧
  (∀ s : State, ∃ w, exec .rdStatus s = .next (s.returnRead w) ∧
    w.toNat = s.engine.err.code.toNat * 2 ^ 8 + s.engine.variant.code.toNat * 2 ^ 2
      + (if s.engine.seeded = true then 1 else 0) * 2 + (if s.engine.busy = true then 1 else 0)) ∧
  (∀ s : State, s.engine.variant = .ctr128 → s.engine.seeded = true → s.engine.busy = false →
    s.engine.err = .noError → exec .rdStatus s = .next (s.returnRead 0x0000000A)) ∧
  (∀ s : State, s.engine.variant = .ctr128 → s.engine.seeded = false → s.engine.busy = false →
    s.engine.err = .notSeeded → exec .rdStatus s = .next (s.returnRead 0x00000408))

/-- R203: `RD OUT` pops the FIFO's head and returns it with bit 8 set, or returns 0 and changes nothing when the FIFO
is empty; at any time, also while `BUSY` = 1 and while `ERR ≠ 0`. -/
def Obligations.OutReadPopsFifo : Prop :=
  ∀ s : State,
    (s.engine.fifo = [] → exec .rdOut s = .next (s.returnRead 0x00000000)) ∧
    (∀ b rest, s.engine.fifo = b :: rest → ∃ w, w.toNat = 0x100 + b.toNat ∧
      exec .rdOut s = .next ((s.withEngine { s.engine with fifo := rest }).returnRead w)) ∧
    (s.engine.fifo = [0xEB, 0x9F] →
      exec .rdOut s = .next ((s.withEngine { s.engine with fifo := [0x9F] }).returnRead 0x000001EB))

/-- R35 to R37, R206 to R208: the count registers return the lengths exactly, with no side effect, in every state that
meets the invariants, for every FIFO depth that a 32-bit register can count. -/
def Obligations.CountReadsAreExact : Prop :=
  ∀ (depth : Nat) (s : State), depth < 2 ^ 32 → EngineInv depth s.engine →
    (∃ w, exec .rdOutcnt s = .next (s.returnRead w) ∧ w.toNat = s.engine.fifo.length) ∧
    (∃ w, exec .rdSeedlen s = .next (s.returnRead w) ∧ w.toNat = s.engine.slen) ∧
    (∃ w, exec .rdRemain s = .next (s.returnRead w) ∧ w.toNat = s.engine.pend.length)

/-- R210: a write at an offset other than 0x04 has no effect; a write of CMD runs `AcceptCmd`. -/
def Obligations.OtherWritesHaveNoEffect : Prop :=
  ∀ (v : Word) (s : State),
    exec (.wrId v) s = .next s ∧ exec (.wrStatus v) s = .next s ∧ exec (.wrOut v) s = .next s ∧
    exec (.wrOutcnt v) s = .next s ∧ exec (.wrSeedlen v) s = .next s ∧ exec (.wrRemain v) s = .next s ∧
    exec (.wrReserved1C v) s = .next s ∧ exec (.wrReserved20 v) s = .next s ∧ exec (.wrReserved24 v) s = .next s ∧
    exec (.wrReserved28 v) s = .next s ∧ exec (.wrReserved2C v) s = .next s ∧ exec (.wrReserved30 v) s = .next s ∧
    exec (.wrReserved34 v) s = .next s ∧ exec (.wrReserved38 v) s = .next s ∧ exec (.wrReserved3C v) s = .next s ∧
    exec (.wrCmd v) s = .next (s.withEngine (acceptCmd v s.engine))

/-! ### Steps -/

/-- A step in which the host is next runs the operation its action decodes to, on the state without that turn. The
agenda is the model's choice (notes/assumptions/1.md). -/
def Obligations.StepRunsDecodedAccess : Prop :=
  ∀ (s : State) (a : BusAction) (rest : List Turn) (i : Instr), s.agenda = .host a :: rest →
    decodeAction a = .ok i → step s = exec i { s with agenda := rest } ∧
      ∀ depth, stepAt depth s = exec i { s with agenda := rest }

/-- A step after `withFetchWord` runs the instruction the decoder reads from those bits; a command word runs as the
command it is. The numbering of the bits is the model's choice (notes/assumptions/7.md). -/
def Obligations.StepRunsTableWord : Prop :=
  ∀ (s : State) (nbits w : Nat) (i : Instr), decodeTableWord nbits w = some i →
    step (s.withFetchWord nbits w) = exec i s

/-- R66: an access is admitted, and has a step, exactly when it moves 32 bits at an offset that is a multiple of 4 in
the window; any other is refused, and nothing faults. The agenda and the refusals are the model's choice
(notes/assumptions/1.md, notes/assumptions/6.md). -/
def Obligations.OnlyAdmittedAccessesHaveSteps : Prop :=
  ∀ (s : State) (a : BusAction) (rest : List Turn), s.agenda = .host a :: rest →
    (admitted a = true → ∃ t, step s = .next t) ∧ (admitted a = false → ∃ r, step s = .refused r)

/-- R8, R200, R201, R202: for every FIFO depth the engine's turn takes PUSH or DONE, whichever is enabled, and passes
when neither is; a step of this hardware is a step at depth 4096. That a turn may pass is the model's choice
(notes/assumptions/9.md). -/
def Obligations.EngineTurnTakesEnabledStep : Prop :=
  (∀ s : State, step s = stepAt 4096 s) ∧
  ∀ (depth : Nat) (s : State) (rest : List Turn), s.agenda = .engine :: rest ∨ (s.agenda = [] ∧ rest = []) →
    let e := s.engine
    (∀ b bs, e.pend = b :: bs → e.fifo.length < depth →
      stepAt depth s = .next { s with engine := { e with fifo := e.fifo ++ [b], pend := bs }, agenda := rest }) ∧
    (e.pend = [] → e.busy = true →
      stepAt depth s = .next { s with engine := { e with busy := false }, agenda := rest }) ∧
    (e.pend ≠ [] → depth ≤ e.fifo.length → stepAt depth s = .next { s with agenda := rest }) ∧
    (e.pend = [] → e.busy = false → stepAt depth s = .next { s with agenda := rest })

/-- R202: the engine's turn changes `FIFO`, `PEND` and `BUSY` only, and from a quiescent state it changes nothing. -/
def Obligations.EngineTurnKeepsTheRest : Prop :=
  (∀ (depth : Nat) (e : Engine),
    { engineStep depth e with fifo := e.fifo, pend := e.pend, busy := e.busy } = e) ∧
  (∀ (depth : Nat) (e : Engine), EngineInv depth e → Quiescent e →
    pushEnabled depth e = false ∧ doneEnabled e = false ∧ engineStep depth e = e)

/-! ### Invariants -/

/-- R8, R46: every step keeps the invariants of every reachable state, for this hardware's FIFO and for any depth. -/
def Obligations.StepKeepsEngineInvariant : Prop :=
  (∀ s t : State, EngineInv 4096 s.engine → step s = .next t → EngineInv 4096 t.engine) ∧
  ∀ (depth : Nat) (s t : State), EngineInv depth s.engine → stepAt depth s = .next t → EngineInv depth t.engine

/-- R46, R47: the state after reset meets the invariants. -/
def Obligations.ResetMeetsEngineInvariant : Prop := ∀ depth, EngineInv depth State.reset.engine

/-! ### Who writes what -/

/-- R2, R23: only SELECT and the reset actions write `VARIANT`, its code is never above 4, the codes have the meanings
of R2, and the functions of `VARIANT` have the values the rule gives. -/
def Obligations.OnlySelectAndResetWriteVariant : Prop :=
  (∀ (i : Instr) (s t : State), exec i s = .next t → t.engine.variant ≠ s.engine.variant →
    (∃ g : Variant, commandOf i = .select g.code 0 ∧ t.engine.variant = g) ∨ commandOf i = .softReset 0 ∨
      i = .reset) ∧
  (∀ (depth : Nat) (e : Engine), (engineStep depth e).variant = e.variant) ∧
  (Variant.legacy.code = 0 ∧ Variant.legacyDrop.code = 1 ∧ Variant.ctr128.code = 2 ∧ Variant.ctr192.code = 3 ∧
    Variant.ctr256.code = 4) ∧
  (∀ g : Variant, g.code.toNat ≤ 4 ∧ (g.keyLen? = none ↔ g.code.toNat = 0 ∨ g.code.toNat = 1) ∧
    (g.code.toNat = 2 → g.keyLen? = some 16) ∧ (g.code.toNat = 3 → g.keyLen? = some 24) ∧
    (g.code.toNat = 4 → g.keyLen? = some 32)) ∧
  (∀ kl, seedLenOf kl = 16 + kl)

/-- R24: a SEED that succeeds (no error pending, not busy, an accepted length) sets `SEEDED` and nothing else does; a
SELECT that executes and the reset actions clear it and nothing else does; PRODUCE requires it. -/
def Obligations.OnlySeedSetsSeeded : Prop :=
  (∀ (i : Instr) (s t : State), exec i s = .next t →
    (s.engine.seeded = false → t.engine.seeded = true →
      commandOf i = .seed 0 ∧ s.engine.err = .noError ∧ s.engine.busy = false ∧ seedLengthOk s.engine = true) ∧
    (s.engine.seeded = true → t.engine.seeded = false →
      ((∃ g : Variant, commandOf i = .select g.code 0) ∧ s.engine.err = .noError ∧ s.engine.busy = false) ∨
        commandOf i = .softReset 0 ∨ i = .reset)) ∧
  (∀ e : Engine, seedLengthOk e = true ↔ 0 < e.slen ∧ ∀ kl, e.variant.keyLen? = some kl → e.slen ≤ 16 + kl) ∧
  (∀ (depth : Nat) (e : Engine), (engineStep depth e).seeded = e.seeded) ∧
  (∀ s : State, s.engine.err = .noError → s.engine.busy = false →
    (seedLengthOk s.engine = true → ∃ e, exec (.seed 0) s = .next (s.withEngine e) ∧ e.seeded = true) ∧
    (∀ g : Variant, ∃ e, exec (.select g.code 0) s = .next (s.withEngine e) ∧ e.seeded = false)) ∧
  (∀ s : State, (∃ e, exec (.softReset 0) s = .next (s.withEngine e) ∧ e.seeded = false) ∧
    (∃ e, exec .reset s = .next (s.withEngine e) ∧ e.seeded = false)) ∧
  (∀ (n : BitVec 24) (s : State), s.engine.seeded = false → s.engine.err = .noError → s.engine.busy = false →
    exec (.produce n 0) s = .next (s.withEngine { s.engine with err := .notSeeded }))

/-- R243: raising a code records it if no error is pending, so `ERR` holds the first error, and only CLEAR_ERR,
SOFT_RESET and RESET clear it. -/
def Obligations.ErrHoldsFirstError : Prop :=
  (∀ (c : ErrCode) (e : Engine), raise c e = recordError c e) ∧
  (∀ (depth : Nat) (e : Engine), (engineStep depth e).err = e.err) ∧
  (∀ (i : Instr) (s t : State), exec i s = .next t → t.engine.err ≠ s.engine.err →
    (s.engine.err = .noError ∧ t.engine.err ≠ .noError) ∨
    (t.engine.err = .noError ∧ (commandOf i = .clearErr 0 ∨ commandOf i = .softReset 0 ∨ i = .reset)))

/-- R244: a command that raises an error has no effect other than its recording. -/
def Obligations.ErrorsArePrecise : Prop :=
  ∀ (i : Instr) (s t : State), exec i s = .next t → t.engine.err ≠ s.engine.err → t.engine.err ≠ .noError →
    t = s.withEngine { s.engine with err := t.engine.err }

/-- R21, R40, R41, R42, R202: the generator state is written only by SEED and PRODUCE of its own family and by the reset
actions, `SLEN` only by SEED_CLEAR, SEED_BYTE and the reset actions, `SEEDBUF` only by SEED_BYTE and the reset actions;
the engine's turns write none of them. -/
def Obligations.GeneratorAndSeedBufferWriters : Prop :=
  (∀ (i : Instr) (s t : State), exec i s = .next t →
    (t.engine.legacy ≠ s.engine.legacy →
      (s.engine.variant.keyLen? = none ∧ (commandOf i = .seed 0 ∨ ∃ n, commandOf i = .produce n 0)) ∨
      commandOf i = .softReset 0 ∨ i = .reset) ∧
    (t.engine.drbg ≠ s.engine.drbg →
      (s.engine.variant.keyLen? ≠ none ∧ (commandOf i = .seed 0 ∨ ∃ n, commandOf i = .produce n 0)) ∨
      commandOf i = .softReset 0 ∨ i = .reset) ∧
    (t.engine.slen ≠ s.engine.slen →
      commandOf i = .seedClear 0 ∨ (∃ b, commandOf i = .seedByte b 0) ∨ commandOf i = .softReset 0 ∨ i = .reset) ∧
    (t.engine.seedBuf ≠ s.engine.seedBuf →
      (∃ b, commandOf i = .seedByte b 0) ∨ commandOf i = .softReset 0 ∨ i = .reset)) ∧
  (∀ (depth : Nat) (e : Engine), (engineStep depth e).legacy = e.legacy ∧ (engineStep depth e).drbg = e.drbg ∧
    (engineStep depth e).slen = e.slen ∧ (engineStep depth e).seedBuf = e.seedBuf)

/-- R14, R68, R258: every instruction has an outcome, no instruction touches the host's agenda, a read returns exactly
one value, and no write, command or RESET returns one. Where the values go is the model's choice
(notes/assumptions/2.md). -/
def Obligations.HostSideFrame : Prop :=
  ∀ (i : Instr) (s : State), ∃ t, exec i s = .next t ∧ t.agenda = s.agenda ∧
    ((∃ offset, actionOf i = .read 4 offset) → ∃ v, t.observed = s.observed ++ [v]) ∧
    ((∀ offset, actionOf i ≠ .read 4 offset) → t.observed = s.observed)

/-! ### Engine runs and streams -/

/-- R8, R16, R200, R201: when the FIFO has room for what is pending, the engine's turns alone move it all, in order, and
clear `BUSY`, for every depth. So every run whose host has no further access then ends (R258), at the latest one step
after its last pending byte, and stays as it is, its observation what it was. What a run is and the host beside the
machine are the model's choice (notes/assumptions/9.md, notes/assumptions/20.md). -/
def Obligations.EngineDrainsWhatFits : Prop :=
  (∀ (depth : Nat) (e : Engine), e.busy = true → e.fifo.length + e.pend.length ≤ depth →
    engineRun depth (e.pend.length + 1) e = { e with busy := false, fifo := e.fifo ++ e.pend, pend := [] }) ∧
  (∀ (depth : Nat) (run : Nat → HostState) (k : Nat), IsRun depth run → (run k).NoFurtherAccess →
    let e := (run k).machine.engine
    (e.pend ≠ [] → e.busy = true) → e.fifo.length + e.pend.length ≤ depth →
    ∀ n, k + e.pend.length + 1 ≤ n → (run n).Ended ∧
      run n = { run k with machine :=
        (run k).machine.withEngine { e with busy := false, fifo := e.fifo ++ e.pend, pend := [] } })

/-- R8, R200, R258, R284: when it has not, the engine's turns alone fill the FIFO and never complete, however many
there are. A host that is in `WAIT_IDLE` then stays there in every run, fair or not (R113, R114); and a host in `POP`
with no byte left in the FIFO or pending stays there too, since every read of `OUT` finds none (R113, R203) and `DONE`
is the engine's only step (R201). Neither run ever ends (R258), and neither does one whose host has no further access
while the FIFO has no room for what is pending, though it may stand still. Turns that pass, what a run is, and the host
beside the machine are the model's choice (notes/assumptions/9.md, notes/assumptions/20.md). -/
def Obligations.FullFifoStallsEngine : Prop :=
  (∀ (depth : Nat) (e : Engine) (k : Nat), e.busy = true → e.fifo.length ≤ depth →
    depth < e.fifo.length + e.pend.length →
    (engineRun depth k e).busy = true ∧ (engineRun depth k e).pend ≠ [] ∧
    (depth - e.fifo.length ≤ k → engineRun depth k e =
      { e with fifo := (e.fifo ++ e.pend).take depth, pend := (e.fifo ++ e.pend).drop depth })) ∧
  (∀ (depth : Nat) (run : Nat → HostState) (k : Nat) (rest : List HostOp), IsRun depth run →
    (run k).failed = false →
    ((run k).program = .waitIdle :: rest → (run k).machine.engine.busy = true →
      (run k).machine.engine.fifo.length ≤ depth →
      depth < (run k).machine.engine.fifo.length + (run k).machine.engine.pend.length →
      (∀ n, k ≤ n → (run n).program = .waitIdle :: rest) ∧ ∀ n, ¬ (run n).Ended) ∧
    ((run k).program = .pop :: rest → (run k).machine.engine.fifo = [] → (run k).machine.engine.pend = [] →
      (∀ n, k ≤ n → (run n).program = .pop :: rest) ∧ ∀ n, ¬ (run n).Ended)) ∧
  (∀ (depth : Nat) (run : Nat → HostState) (k : Nat), IsRun depth run → (run k).NoFurtherAccess →
    (run k).machine.engine.busy = true → (run k).machine.engine.fifo.length ≤ depth →
    depth < (run k).machine.engine.fifo.length + (run k).machine.engine.pend.length → ∀ n, ¬ (run n).Ended)

/-- R8, R71, R211: in a run in which no command drops output, however the turns fall and whatever the FIFO's depth, the
bytes delivered, then the FIFO, then `PEND` are what the FIFO and `PEND` held at first and the bytes generated since,
in order, none skipped or repeated. So from empty queues what is delivered is the beginning of what is generated, and
all of it when the queues are empty again. -/
def Obligations.StreamIsConserved : Prop :=
  ∀ (depth : Nat) (s t : State) (generated delivered : List Byte), EngineInv depth s.engine →
    StreamRun depth s generated delivered t →
    delivered ++ t.engine.fifo ++ t.engine.pend = s.engine.fifo ++ s.engine.pend ++ generated ∧
    (s.engine.fifo = [] → s.engine.pend = [] → delivered <+: generated ∧
      (t.engine.busy = false → t.engine.fifo = [] → delivered = generated))

/-! ### The legacy keystream generator -/

/-- R122, R13, R229: one step: the cursors advance modulo 256, two entries are exchanged, and the emitted byte is read
after the swap. -/
def Obligations.LegacyStepFollowsRule : Prop :=
  ∀ st : LegacyState,
    let r := rc4Step st
    r.2.i.toNat = (st.i.toNat + 1) % 256 ∧
    r.2.j.toNat = (st.j.toNat + (tableGet st.s r.2.i).toNat) % 256 ∧
    (∀ k : Byte, tableGet r.2.s k = if k = r.2.i then tableGet st.s r.2.j
      else if k = r.2.j then tableGet st.s r.2.i else tableGet st.s k) ∧
    ∃ x : Byte, x.toNat = ((tableGet r.2.s r.2.i).toNat + (tableGet r.2.s r.2.j).toNat) % 256 ∧
      r.1 = tableGet r.2.s x

/-- R123, R125: `Rc4Produce(n)` returns the results of `n` steps, byte `m` that of the step after `m` steps, and leaves
the state after `n` steps; so requests may be split, for the procedure and for the stream a legacy variant emits. -/
def Obligations.LegacyProduceRunsStepsAndChunks : Prop :=
  (∀ (n : Nat) (st : LegacyState), (rc4Produce n st).1.length = n ∧
    (∀ m, m < n → (rc4Produce n st).1.getD m 0 = (rc4Step (legacyAfter m st)).1) ∧
    (rc4Produce n st).2 = legacyAfter n st) ∧
  (∀ (a b : Nat) (st : LegacyState),
    (rc4Produce (a + b) st).1 = (rc4Produce a st).1 ++ (rc4Produce b (rc4Produce a st).2).1 ∧
    (rc4Produce (a + b) st).2 = (rc4Produce b (rc4Produce a st).2).2) ∧
  (∀ (a b : Nat) (e : Engine), e.variant.keyLen? = none →
    (generate (a + b) e).1 = (generate a e).1 ++ (generate b (generate a e).2).1 ∧
    (generate (a + b) e).2 = (generate b (generate a e).2).2)

/-- R126: `Rc4Seed` leaves the table a permutation of 0..255, every `Rc4Step` keeps it one, and every emitted byte is an
element of the table. -/
def Obligations.LegacyTableStaysPermutation : Prop :=
  (∀ key : List Byte, IsPermutation (rc4Seed key).s) ∧
  (∀ st : LegacyState, IsPermutation st.s → IsPermutation (rc4Step st).2.s) ∧
  (∀ st : LegacyState, (rc4Step st).1 ∈ (rc4Step st).2.s.toList)

/-- R121, R127: the key schedule. `J i` and `T i` are the local `j` and the table, as numbers, before the loop's pass
for index `i`: the table starts as the identity and `j` at 0, and the state after is the table after 256 passes with
both cursors 0. The identity, `j` = 0 and the cursors' 0 are passages R121 marks as general knowledge
(notes/assumptions/5.md). Two keys that agree periodically give the same state; 256 copies of 0xAB and the one byte
0xAB are two different seeds that do. -/
def Obligations.LegacyKeyScheduleAndPeriodicity : Prop :=
  (∀ key : List Byte, 1 ≤ key.length → key.length ≤ 256 → ∃ (J : Nat → Nat) (T : Nat → Nat → Nat),
    J 0 = 0 ∧ (∀ k, k < 256 → T 0 k = k) ∧
    (∀ i, i < 256 → J (i + 1) = (J i + T i i + (key.getD (i % key.length) 0).toNat) % 256 ∧
      ∀ k, k < 256 → T (i + 1) k = if k = i then T i (J (i + 1)) else if k = J (i + 1) then T i i else T i k) ∧
    (∀ k : Byte, (tableGet (rc4Seed key).s k).toNat = T 256 k.toNat) ∧
    (rc4Seed key).i = 0 ∧ (rc4Seed key).j = 0) ∧
  (rc4Seed [0x4B, 0x65, 0x79]).s.toList.take 16 = [0x4B, 0x33, 0x84, 0x9D, 0xC0, 0xC8, 0x1D, 0xA8, 0x4A, 0xF3, 0x83,
    0xE4, 0x12, 0x70, 0x82, 0x90] ∧
  (∀ k1 k2 : List Byte, k1 ≠ [] → k2 ≠ [] →
    (∀ i, i < 256 → k1.getD (i % k1.length) 0 = k2.getD (i % k2.length) 0) → rc4Seed k1 = rc4Seed k2) ∧
  List.replicate 256 (0xAB : Byte) ≠ [0xAB] ∧ rc4Seed (List.replicate 256 0xAB) = rc4Seed [0xAB]

/-- R124: the drop is the state after producing as many bytes, it moves the cursor `I` by its count, and `DROP_COUNT`
bytes after seeding leave `I` = 0. -/
def Obligations.LegacyDropDiscards : Prop :=
  (∀ (m : Nat) (st : LegacyState), rc4Discard m st = (rc4Produce m st).2 ∧
    (rc4Discard m st).i.toNat = (st.i.toNat + m) % 256) ∧
  (∀ key : List Byte, (rc4Discard 3072 (rc4Seed key)).i = 0)

/-! ### The counter DRBG, for every cipher `E` -/

/-- R143: the carry loop is `V <- BEbytes_16((BE(V) + 1) mod 2^128)`. -/
def Obligations.IncrementAddsOne : Prop :=
  ∀ v : Block, (inc v).toList = beBytes 16 ((beNat v.toList + 1) % 2 ^ 128) ∧
    beNat (inc v).toList = (beNat v.toList + 1) % 2 ^ 128

/-- R146: the loop of `Update` runs 2, 3 and 3 times for CTR128, CTR192 and CTR256, and `k` runs add `k` to `BE(V)`
modulo 2^128. -/
def Obligations.UpdateLoopCounts : Prop :=
  blocksFor (seedLenOf 16) = 2 ∧ blocksFor (seedLenOf 24) = 3 ∧ blocksFor (seedLenOf 32) = 3 ∧
  ∀ (E : Cipher) (K : List Byte) (k : Nat) (v : Block),
    beNat (cipherStream E K k v).2.toList = (beNat v.toList + k) % 2 ^ 128

/-- R145: `Update` sets the first `keylen` bytes of `KEY` and the 16 bytes of `V` from the stream under the entry key
XOR the provided data, and the other key bytes to 0. -/
def Obligations.UpdateSplitsStream : Prop :=
  ∀ (E : Cipher) (kl : Nat) (pd : List Byte) (d : DrbgState), kl = 16 ∨ kl = 24 ∨ kl = 32 → pd.length = 16 + kl →
    let K := d.key.toList.take kl
    (∀ k, (h : k < 32) → (drbgUpdate E kl pd d).key[k] =
      if k < kl then streamByte E K d.v k ^^^ pd.getD k 0 else 0) ∧
    (∀ k, (h : k < 16) → (drbgUpdate E kl pd d).v[k] = streamByte E K d.v (kl + k) ^^^ pd.getD (kl + k) 0)

/-- R147: instantiate is one update, from a zero key and a zero value register, with the seed followed by zeros. -/
def Obligations.InstantiateIsOneUpdate : Prop :=
  ∀ (E : Cipher) (kl : Nat) (p : List Byte), 0 < p.length → p.length ≤ 16 + kl →
    ∃ zero : DrbgState, (∀ k, (h : k < 32) → zero.key[k] = 0) ∧ (∀ k, (h : k < 16) → zero.v[k] = 0) ∧
      drbgInstantiate E kl p = drbgUpdate E kl (p ++ List.replicate (16 + kl - p.length) 0) zero

/-- R149, R150: generate emits `n` bytes of the stream, then updates with zeros from the value register the loop left,
`ceil(n / 16)` increments on. -/
def Obligations.GenerateEmitsStream : Prop :=
  ∀ (E : Cipher) (kl n : Nat) (d : DrbgState),
    let r := drbgProduce E kl n d
    r.1.length = n ∧
    (∀ m, m < n → r.1.getD m 0 = streamByte E (d.key.toList.take kl) d.v m) ∧
    r.2 = drbgUpdate E kl (List.replicate (16 + kl) 0) { d with v := incTimes ((n + 15) / 16) d.v }

/-- C6, R154: the first bytes of a request do not depend on its length, and for CTR128 the key after `Generate(16)` is
bytes 16 to 31 of what `Generate(32)` emits from the same state. -/
def Obligations.GeneratePrefixAndOverlap : Prop :=
  (∀ (E : Cipher) (kl n m : Nat) (d : DrbgState), n ≤ m →
    (drbgGenerate E kl n d).1 = (drbgGenerate E kl m d).1.take n) ∧
  (∀ (E : Cipher) (d : DrbgState),
    (drbgGenerate E 16 16 d).2.key.toList.take 16 = (drbgGenerate E 16 32 d).1.drop 16)

/-- R40, R45, R121, R148: what a SEED leaves of the selected generator depends on the variant and the seed bytes alone:
not on the old generator state, and not on the buffer past `SLEN`. -/
def Obligations.SeedReplacesGenerator : Prop :=
  ∀ s1 s2 t1 t2 : State, s1.engine.variant = s2.engine.variant → seedBytes s1.engine = seedBytes s2.engine →
    s1.engine.slen = s2.engine.slen → s1.engine.err = .noError → s2.engine.err = .noError →
    s1.engine.busy = false → s2.engine.busy = false → exec (.seed 0) s1 = .next t1 → exec (.seed 0) s2 = .next t2 →
    t1.engine.err = .noError → t2.engine.err = .noError ∧
    (s1.engine.variant.keyLen? = none → t1.engine.legacy = t2.engine.legacy) ∧
    (s1.engine.variant.keyLen? ≠ none → t1.engine.drbg = t2.engine.drbg) ∧
    ∀ n, (generate n t1.engine).1 = (generate n t2.engine).1

/-! ### Host programs -/

/-- R113, R114, R203: host programs run on the machine. `READ n` made of reads of `OUT` that return what R203 says,
whatever empty reads fall between, collects exactly the bytes popped, in order. A part of a run is the machine's own
steps on an agenda of the turns taken. And the accesses of a host that has come to the end of its program, with the
values they returned, are an expansion of its lines, which collects the bytes the host has. The agenda is the model's
choice (notes/assumptions/1.md). -/
def Obligations.HostRunsFollowExpansions : Prop :=
  (∀ (pops : List (Option Byte)) (last : Byte),
    let all := pops ++ [some last]
    runLines [.readBytes (all.filterMap id).length]
      (transcript (List.replicate all.length (.read 4 0x0C)) (all.map outWord)) = some (all.filterMap id)) ∧
  (∀ (depth : Nat) (c d : HostState) (turns later : List Turn), HostPath depth c turns d →
    stepsAt depth turns.length { c.machine with agenda := turns ++ later } =
      .next { d.machine with agenda := later }) ∧
  (∀ (depth : Nat) (s : State) (lines : List HostLine) (turns : List Turn) (d : HostState),
    HostPath depth (.start s lines) turns d → d.program = [] → d.failed = false →
    runLines lines (transcript (hostActions turns) (observation s d)) = some d.collected)

/-- R16, R114, R201: in every weakly fair run, for every FIFO depth of at least 1, `POP` ends when a byte is in the
FIFO or pending, with the oldest such byte, and `WAIT_IDLE` ends when the FIFO has room for what is pending (R284),
with all of it in the FIFO and `BUSY` = 0. Nothing else of the engine changes. That a loop ends rests on the model's
reading of a run, which stands still only where neither agent has a step, so that the host moves on
(notes/assumptions/9.md); the host beside the machine is the model's choice (notes/assumptions/20.md). -/
def Obligations.HostLoopsEndInFairRuns : Prop :=
  ∀ (depth : Nat) (run : Nat → HostState) (k : Nat) (rest : List HostOp), 1 ≤ depth → FairRun depth run →
    (run k).failed = false →
    let e := (run k).machine.engine
    (∀ b queue, (run k).program = .pop :: rest → e.fifo ++ e.pend = b :: queue →
      ∃ n, k < n ∧ (run n).program = rest ∧ (run n).failed = false ∧
        (run n).collected = (run k).collected ++ [b] ∧
        (run n).machine.engine.fifo ++ (run n).machine.engine.pend = queue ∧
        { (run n).machine.engine with fifo := e.fifo, pend := e.pend, busy := e.busy } = e) ∧
    ((run k).program = .waitIdle :: rest → (e.pend ≠ [] → e.busy = true) →
      e.fifo.length + e.pend.length ≤ depth →
      ∃ n, k < n ∧ (run n).program = rest ∧ (run n).failed = false ∧ (run n).collected = (run k).collected ∧
        (run n).machine.engine = { e with busy := false, fifo := e.fifo ++ e.pend, pend := [] })

/-- R8, R19, R113, R114: `GET n` against an idle seeded engine without a pending error ends in every weakly fair run,
for every FIFO depth of at least 1. The host then has the next `n` bytes of what the FIFO held followed by the `n`
bytes the generator emits, whatever the depth, and the engine is idle with the generator advanced and the rest in its
FIFO. That `GET` ends rests on the model's reading of a run, which stands still only where neither agent has a step, so
that the host moves on (notes/assumptions/9.md); the host beside the machine is the model's choice
(notes/assumptions/20.md). -/
def Obligations.GetReturnsGeneratedBytes : Prop :=
  ∀ (depth : Nat) (run : Nat → HostState) (k : Nat) (n : BitVec 24) (rest : List HostOp), 1 ≤ depth →
    FairRun depth run → (run k).failed = false →
    let e := (run k).machine.engine
    EngineInv depth e → e.err = .noError → e.busy = false → e.seeded = true →
    (run k).program = HostLine.expand (.get n) ++ rest →
    ∃ m, k < m ∧ (run m).program = rest ∧ (run m).failed = false ∧
      (run m).collected = (run k).collected ++ (e.fifo ++ (generate n.toNat e).1).take n.toNat ∧
      (run m).machine.engine = { (generate n.toNat e).2 with
        fifo := (e.fifo ++ (generate n.toNat e).1).drop n.toNat, pend := [], busy := false }
end

