-- ==== Sys2Proof/Laws/Decode.lean ====
section
/-! SUPPORT. The fields of a command word and the word of its fields (30_encoding.md R90, R93). -/

namespace Sys2Proof

theorem low_of_append {n m : Nat} (hi : BitVec m) (lo : BitVec n) : (hi ++ lo).extractLsb' 0 n = lo := by
  apply BitVec.eq_of_getLsbD_eq
  intro k hk
  simp [BitVec.getLsbD_append, hk]

theorem high_of_append {n m : Nat} (hi : BitVec m) (lo : BitVec n) : (hi ++ lo).extractLsb' n m = hi := by
  apply BitVec.eq_of_getLsbD_eq
  intro k hk
  simp [BitVec.getLsbD_append, hk]

/-- A word is its high part after its low part. -/
theorem append_of_parts {n m : Nat} (a : BitVec (m + n)) : a.extractLsb' n m ++ a.extractLsb' 0 n = a := by
  apply BitVec.eq_of_getLsbD_eq
  intro k hk
  rw [BitVec.getLsbD_append]
  split
  · rename_i h
    simp [h]
  · rename_i h
    simp [show k - n < m by omega, show n + (k - n) = k by omega]

theorem opcodeField_commandWord (op : BitVec 4) (a : BitVec 28) : opcodeField (commandWord op a) = op :=
  high_of_append op a

theorem operandField_commandWord (op : BitVec 4) (a : BitVec 28) : operandField (commandWord op a) = a :=
  low_of_append op a

theorem commandWord_fields (w : Word) : commandWord (opcodeField w) (operandField w) = w :=
  append_of_parts (n := 28) (m := 4) w

theorem decodeCommand_commandWord (op : BitVec 4) (a : BitVec 28) :
    decodeCommand (commandWord op a) = decodeFields op a := by
  rw [decodeCommand, opcodeField_commandWord, operandField_commandWord]

theorem decodeFields_select (v : BitVec 3) (rest : BitVec 25) : decodeFields 0x1 (rest ++ v) = .select v rest :=
  congrArg₂ Instr.select (low_of_append rest v) (high_of_append rest v)

theorem decodeFields_seedByte (b : Byte) (rest : BitVec 20) : decodeFields 0x3 (rest ++ b) = .seedByte b rest :=
  congrArg₂ Instr.seedByte (low_of_append rest b) (high_of_append rest b)

theorem decodeFields_produce (n : BitVec 24) (rest : BitVec 4) : decodeFields 0x5 (rest ++ n) = .produce n rest :=
  congrArg₂ Instr.produce (low_of_append rest n) (high_of_append rest n)

/-- The opcodes, one by one (R96). -/
theorem opcode_cases (op : BitVec 4) :
    op = 0x0 ∨ op = 0x1 ∨ op = 0x2 ∨ op = 0x3 ∨ op = 0x4 ∨ op = 0x5 ∨ op = 0x6 ∨ op = 0x7 ∨ op = 0x8 ∨ op = 0x9 ∨
      op = 0xA ∨ op = 0xB ∨ op = 0xC ∨ op = 0xD ∨ op = 0xE ∨ op = 0xF := by
  revert op; decide

theorem opcodeField_toNat (w : Word) : (opcodeField w).toNat = w.toNat / 2 ^ 28 := by
  have := w.isLt
  simp only [opcodeField, BitVec.extractLsb'_toNat, Nat.shiftRight_eq_div_pow]
  omega

theorem operandField_toNat (w : Word) : (operandField w).toNat = w.toNat % 2 ^ 28 := by
  simp [operandField, BitVec.extractLsb'_toNat]

theorem encode_decodeFields (op : BitVec 4) (a : BitVec 28) :
    encode (decodeFields op a) = (32, (commandWord op a).toNat) := by
  rcases opcode_cases op with h | h | h | h | h | h | h | h | h | h | h | h | h | h | h | h <;> subst h <;>
    first | rfl | skip
  · exact congrArg (fun b => (32, (commandWord 1 b).toNat)) (append_of_parts (n := 3) (m := 25) a)
  · exact congrArg (fun b => (32, (commandWord 3 b).toNat)) (append_of_parts (n := 8) (m := 20) a)
  · exact congrArg (fun b => (32, (commandWord 5 b).toNat)) (append_of_parts (n := 24) (m := 4) a)

/-- A command's host action is the write of its word to CMD (R91, R111). -/
theorem actionOf_decodeFields (op : BitVec 4) (a : BitVec 28) :
    actionOf (decodeFields op a) = .write 4 0x04 (commandWord op a) := by
  simp [actionOf, encode_decodeFields, actionOfTableWord]

/-- A write's bits spell its action (notes/assumptions/7.md). -/
theorem actionOf_writeBits (offset : Nat) (v : Word) (h : offset < 64) :
    actionOfTableWord (writeBits offset v).1 (writeBits offset v).2 = .write 4 offset v := by
  have h1 : (offset + 64 + 256 * v.toNat) / 64 % 2 = 1 := by omega
  have h2 : (offset + 64 + 256 * v.toNat) % 64 + 128 * ((offset + 64 + 256 * v.toNat) / 128 % 2) = offset := by omega
  have h3 : (offset + 64 + 256 * v.toNat) / 256 = v.toNat := by omega
  simp [actionOfTableWord, writeBits, h1, h2, h3]

/-- The bits above `n` are zero exactly when the field they form is. -/
theorem high_bits_zero {n m : Nat} (a : BitVec (m + n)) : a.toNat / 2 ^ n = 0 ↔ a.extractLsb' n m = 0 := by
  have ha := a.isLt
  have : a.toNat / 2 ^ n < 2 ^ m := by
    rw [Nat.div_lt_iff_lt_mul (by positivity), ← pow_add]
    exact ha
  rw [← BitVec.toNat_inj, BitVec.extractLsb'_toNat, Nat.shiftRight_eq_div_pow, Nat.mod_eq_of_lt this]
  simp

end Sys2Proof
end

