-- ==== Sys2Proof/Laws/State.lean ====
section
/-! SUPPORT. One lemma per field per update of the state. -/

namespace Sys2Proof.Machine

@[simp] theorem State.withEngine_engine (s : State) (e : Engine) : (s.withEngine e).engine = e := rfl
@[simp] theorem State.withEngine_agenda (s : State) (e : Engine) : (s.withEngine e).agenda = s.agenda := rfl
@[simp] theorem State.withEngine_observed (s : State) (e : Engine) : (s.withEngine e).observed = s.observed := rfl
@[simp] theorem State.returnRead_engine (s : State) (v : Word) : (s.returnRead v).engine = s.engine := rfl
@[simp] theorem State.returnRead_agenda (s : State) (v : Word) : (s.returnRead v).agenda = s.agenda := rfl
@[simp] theorem State.returnRead_observed (s : State) (v : Word) :
    (s.returnRead v).observed = s.observed ++ [v] := rfl

@[simp] theorem State.withTurn_engine (s : State) (x : Turn) : (s.withTurn x).engine = s.engine := rfl
@[simp] theorem State.withTurn_agenda (s : State) (x : Turn) : (s.withTurn x).agenda = x :: s.agenda := rfl
@[simp] theorem State.withTurn_observed (s : State) (x : Turn) : (s.withTurn x).observed = s.observed := rfl

theorem State.withEngine_self (s : State) : s.withEngine s.engine = s := rfl

theorem State.withEngine_twice (s : State) (e e' : Engine) : (s.withEngine e).withEngine e' = s.withEngine e' := rfl

@[simp] theorem Engine.reset_variant : Engine.reset.variant = .ctr128 := rfl
@[simp] theorem Engine.reset_seeded : Engine.reset.seeded = false := rfl
@[simp] theorem Engine.reset_busy : Engine.reset.busy = false := rfl
@[simp] theorem Engine.reset_err : Engine.reset.err = .noError := rfl
@[simp] theorem Engine.reset_slen : Engine.reset.slen = 0 := rfl
@[simp] theorem Engine.reset_seedBuf : Engine.reset.seedBuf = Vector.replicate 256 0 := rfl
@[simp] theorem Engine.reset_legacy :
    Engine.reset.legacy = { s := Vector.replicate 256 0, i := 0, j := 0 } := rfl
@[simp] theorem Engine.reset_drbg :
    Engine.reset.drbg = { key := Vector.replicate 32 0, v := Vector.replicate 16 0 } := rfl
@[simp] theorem Engine.reset_pend : Engine.reset.pend = [] := rfl
@[simp] theorem Engine.reset_fifo : Engine.reset.fifo = [] := rfl

end Sys2Proof.Machine
end

