-- ==== Sys2Proof/Laws/Ops.lean ====
section
/-! SUPPORT. What each shared operation does, said once. -/

namespace Sys2Proof.Machine

/-- Raising an error is the recording rule (R243). -/
theorem raise_eq_recordError (c : ErrCode) (e : Engine) : raise c e = recordError c e := by
  unfold raise recordError
  split <;> simp_all

theorem raise_of_error {e : Engine} (c : ErrCode) (h : e.err ≠ .noError) : raise c e = e := by simp [raise, h]

theorem raise_of_noError {e : Engine} (c : ErrCode) (h : e.err = .noError) : raise c e = { e with err := c } := by
  simp [raise, h]

/-- Raising touches `ERR` only (R244). -/
theorem raise_frame (c : ErrCode) (e : Engine) : { raise c e with err := e.err } = e := by
  unfold raise
  split <;> rfl

/-- What the engine's turn can do (R200, R201, R202). -/
theorem engineStep_cases (depth : Nat) (e : Engine) :
    (∃ b rest, e.pend = b :: rest ∧ e.fifo.length < depth ∧
      engineStep depth e = { e with fifo := e.fifo ++ [b], pend := rest }) ∨
    (e.pend = [] ∧ e.busy = true ∧ engineStep depth e = { e with busy := false }) ∨
    (engineStep depth e = e ∧ (e.pend = [] → e.busy = false) ∧ (e.pend ≠ [] → depth ≤ e.fifo.length)) := by
  rcases hp : e.pend with _ | ⟨b, rest⟩
  · cases hb : e.busy
    · right; right
      simp [engineStep, pushEnabled, doneEnabled, hp, hb]
    · right; left
      simp [engineStep, pushEnabled, doneEnabled, hp, hb]
  · by_cases hf : e.fifo.length < depth
    · left
      exact ⟨b, rest, rfl, hf, by simp [engineStep, pushEnabled, moveByte, hp, hf]⟩
    · right; right
      simp [engineStep, pushEnabled, doneEnabled, hp, hf]
      omega

/-- What a pop can do (R203). -/
theorem popFifo_cases (e : Engine) :
    (e.fifo = [] ∧ popFifo e = (none, e)) ∨
    (∃ b rest, e.fifo = b :: rest ∧ popFifo e = (some b, { e with fifo := rest })) := by
  rcases hf : e.fifo with _ | ⟨b, rest⟩
  · left; simp [popFifo, hf]
  · right; exact ⟨b, rest, rfl, by simp [popFifo, hf]⟩

/-- What acceptance can do: record an error, reset, clear the error, ignore the word, or execute it (R225). -/
theorem acceptFields_cases (op : BitVec 4) (a : BitVec 28) (e : Engine) :
    (definedOpcode op = false ∧ acceptFields op a e = raise .illegalCmd e) ∨
    (definedOpcode op = true ∧ operandLegal op a = false ∧ acceptFields op a e = raise .illegalOperand e) ∨
    (operandLegal op a = true ∧ op = 0xF ∧ acceptFields op a e = softResetEffect e) ∨
    (operandLegal op a = true ∧ op = 0xE ∧ acceptFields op a e = clearErrEffect e) ∨
    (operandLegal op a = true ∧ e.err ≠ .noError ∧ acceptFields op a e = e) ∨
    (operandLegal op a = true ∧ e.err = .noError ∧ e.busy = true ∧ acceptFields op a e = { e with err := .busyErr }) ∨
    (definedOpcode op = true ∧ operandLegal op a = true ∧ op ≠ 0xF ∧ op ≠ 0xE ∧ e.err = .noError ∧ e.busy = false ∧
      acceptFields op a e = executeCommand op a e) := by
  unfold acceptFields
  cases hd : definedOpcode op <;> cases hl : operandLegal op a <;> simp
  by_cases hF : op = 15#4
  · simp [hF]
  · by_cases hE : op = 14#4
    · simp [hE]
    · by_cases he : e.err = .noError
      · cases hb : e.busy <;> simp [hF, hE, he, hb, raise]
      · simp [hF, hE, he]

/-- Whatever command fields decode to, performing it is accepting them (R91, R111, R225). -/
theorem exec_decodeFields (op : BitVec 4) (a : BitVec 28) (s : State) :
    exec (decodeFields op a) s = .next (s.withEngine (acceptFields op a s.engine)) := by
  rcases opcode_cases op with h | h | h | h | h | h | h | h | h | h | h | h | h | h | h | h <;> subst h <;>
    first | rfl | skip
  · exact congrArg (fun b => Host.Outcome.next (s.withEngine (acceptFields 0x1 b s.engine)))
      (append_of_parts (n := 3) (m := 25) a)
  · exact congrArg (fun b => Host.Outcome.next (s.withEngine (acceptFields 0x3 b s.engine)))
      (append_of_parts (n := 8) (m := 20) a)
  · exact congrArg (fun b => Host.Outcome.next (s.withEngine (acceptFields 0x5 b s.engine)))
      (append_of_parts (n := 24) (m := 4) a)

theorem length_zeros (n : Nat) : (zeros n).length = n := by simp [zeros]

theorem length_xorBytes (xs ys : List Byte) : (xorBytes xs ys).length = min xs.length ys.length := by
  simp [xorBytes]

/-- A byte sequence of the array's length is its bytes. -/
theorem toList_arrayOf {n : Nat} {bs : List Byte} (h : bs.length = n) : (arrayOf n bs).toList = bs := by
  simp [arrayOf, zeros, Vector.toList, h]

theorem getElem_arrayOf {n : Nat} (bs : List Byte) (k : Nat) (h : k < n) : (arrayOf n bs)[k] = bs.getD k 0 := by
  simp only [arrayOf, Vector.getElem_mk, List.getElem_toArray, List.getElem_take]
  rw [List.getElem_append]
  split
  · rename_i hk
    simp [List.getD_eq_getElem?_getD, hk]
  · rename_i hk
    simp [zeros, List.getD_eq_getElem?_getD, List.getElem?_eq_none (Nat.le_of_not_lt hk)]

end Sys2Proof.Machine
end

