-- ==== Sys2Proof/Laws/Drbg.lean ====
section
/-! SUPPORT. Lengths of the DRBG's byte sequences (41_counter_drbg.md R140, R145 to R149). -/

namespace Sys2Proof.Machine

theorem cipherStream_length (E : Cipher) (K : List Byte) (k : Nat) (v : Block) :
    (cipherStream E K k v).1.length = 16 * k := by
  induction k generalizing v with
  | zero => rfl
  | succ k ih => simp [cipherStream, ih]; omega

/-- The stream of `j + k` blocks is the stream of `j`, then of `k` from where it stopped. -/
theorem cipherStream_add (E : Cipher) (K : List Byte) (j k : Nat) (v : Block) :
    cipherStream E K (j + k) v =
      ((cipherStream E K j v).1 ++ (cipherStream E K k (cipherStream E K j v).2).1,
        (cipherStream E K k (cipherStream E K j v).2).2) := by
  induction j generalizing v with
  | zero => simp [cipherStream]
  | succ j ih => rw [Nat.succ_add]; simp [cipherStream, ih]

theorem cipherStream_snd (E : Cipher) (K : List Byte) (k : Nat) (v : Block) :
    (cipherStream E K k v).2 = incTimes k v := by
  induction k generalizing v with
  | zero => rfl
  | succ k ih => simp [cipherStream, incTimes, ih]

/-- Enough blocks for `n` bytes, and never 16 bytes too many. -/
theorem blocksFor_bounds (n : Nat) : n ≤ 16 * blocksFor n ∧ 16 * blocksFor n < n + 16 := by
  simp only [blocksFor, Config.outLen]
  omega

theorem seedMaterial_eq (kl : Nat) (p : List Byte) (h : p.length ≤ seedLenOf kl) :
    seedMaterial kl p = p ++ zeros (seedLenOf kl - p.length) := by
  have hl : (p ++ zeros (seedLenOf kl - p.length)).length = seedLenOf kl := by simp [zeros]; omega
  unfold seedMaterial xorBytes
  generalize p ++ zeros (seedLenOf kl - p.length) = q at hl
  rw [← hl]
  clear hl h
  induction q with
  | nil => rfl
  | cons b q ih => simpa [zeros, List.replicate_succ] using ih

end Sys2Proof.Machine
end

