-- ==== Sys2Proof/Laws/Legacy.lean ====
section
/-! SUPPORT. The legacy generator: swapping permutes (40_legacy_keystream.md R126). -/

namespace Sys2Proof.Machine

theorem tableSwap_perm (t : Table) (a b : Byte) : (tableSwap t a b).toList.Perm t.toList := by
  have h := Vector.swap_perm (xs := t) (i := a.toNat) (j := b.toNat) a.isLt b.isLt
  exact h.toList

theorem identityTable_isPermutation : IsPermutation identityTable := by
  have h : identityTable.toList = (List.range 256).map (BitVec.ofNat 8) := by
    exact toList_arrayOf (by simp)
  rw [IsPermutation, h]

theorem tableSwap_isPermutation {t : Table} (h : IsPermutation t) (a b : Byte) : IsPermutation (tableSwap t a b) :=
  (tableSwap_perm t a b).trans h

/-- A table read gives a byte of the table. -/
theorem tableGet_mem (t : Table) (k : Byte) : tableGet t k ∈ t.toList := by
  simp [tableGet, Vector.toList]

theorem rc4Produce_length (n : Nat) (st : LegacyState) : (rc4Produce n st).1.length = n := by
  induction n generalizing st with
  | zero => rfl
  | succ n ih => simp [rc4Produce, ih]

end Sys2Proof.Machine
end

