-- ==== Sys2Proof/Laws/Exec.lean ====
section
/-! SUPPORT. Everything accepting a word and executing an instruction can do, said once
(44_commands_control.md R225, R226, R227). -/

namespace Sys2Proof.Machine

/-! ### Codes -/

@[simp] theorem Variant.ofCode?_code (g : Variant) : Variant.ofCode? g.code = some g := by cases g <;> rfl

/-- The codes 0 to 4 are the variants' codes (R95). -/
theorem Variant.code_of_le (v : BitVec 3) (h : v.toNat ≤ 4) : ∃ g : Variant, v = g.code := by
  have : v = 0 ∨ v = 1 ∨ v = 2 ∨ v = 3 ∨ v = 4 := by revert v; decide
  rcases this with h | h | h | h | h
  · exact ⟨.legacy, h⟩
  · exact ⟨.legacyDrop, h⟩
  · exact ⟨.ctr128, h⟩
  · exact ⟨.ctr192, h⟩
  · exact ⟨.ctr256, h⟩

theorem operandLegal_select (v : BitVec 3) (r : BitVec 25) :
    operandLegal 1 (r ++ v) = (r == 0 && decide (v.toNat ≤ 4)) := by
  change ((r ++ v).extractLsb' 3 25 == 0 && decide (((r ++ v).extractLsb' 0 3).toNat ≤ 4)) = _
  rw [high_of_append, low_of_append]

theorem operandLegal_seedByte (b : Byte) (r : BitVec 20) : operandLegal 3 (r ++ b) = (r == 0) := by
  change ((r ++ b).extractLsb' 8 20 == 0) = _
  rw [high_of_append]

theorem operandLegal_produce (n : BitVec 24) (r : BitVec 4) : operandLegal 5 (r ++ n) = (r == 0) := by
  change ((r ++ n).extractLsb' 24 4 == 0) = _
  rw [high_of_append]

/-! ### Frames of the shared operations -/

/-- Raising writes `ERR` only (R244). -/
theorem raise_keeps (c : ErrCode) (e : Engine) : raise c e = { e with err := (raise c e).err } := by
  unfold raise
  split <;> rfl

/-- A pop writes the FIFO only (R203). -/
theorem popFifo_keeps (e : Engine) : (popFifo e).2 = { e with fifo := (popFifo e).2.fifo } := by
  rcases popFifo_cases e with ⟨_, h⟩ | ⟨_, _, _, h⟩ <;> rw [h]

/-- Generating writes the generator arrays only (R190). -/
theorem generate_keeps (n : Nat) (e : Engine) :
    (generate n e).2 = { e with legacy := (generate n e).2.legacy, drbg := (generate n e).2.drbg } := by
  unfold generate
  split <;> rfl

/-- Seeding's generator part writes the generator arrays only (R175). -/
theorem seedGenerator_keeps (e : Engine) :
    seedGenerator e = { e with legacy := (seedGenerator e).legacy, drbg := (seedGenerator e).drbg } := by
  unfold seedGenerator
  cases e.variant <;> simp only

/-- A request of `n` bytes yields `n` bytes (R190). -/
theorem generate_length (n : Nat) (e : Engine) : (generate n e).1.length = n := by
  unfold generate
  split
  · exact rc4Produce_length _ _
  · simp only [drbgProduce, drbgGenerate, List.length_take, cipherStream_length]
    have := blocksFor_bounds n
    omega

/-! ### Acceptance -/

/-- The seven ordinary commands are accepted alike (R225 steps 2, 5, 6 and 7). -/
theorem acceptFields_ordinary (op : BitVec 4) (a : BitVec 28) (e : Engine)
    (h : op ∈ [0x0#4, 0x1#4, 0x2#4, 0x3#4, 0x4#4, 0x5#4, 0x6#4]) :
    acceptFields op a e = ordinaryCommand (operandLegal op a) e (executeCommand op a e) := by
  have h1 : definedOpcode op = true := by revert op; decide
  have h2 : op ≠ 15 := by rintro rfl; revert h; decide
  have h3 : op ≠ 14 := by rintro rfl; revert h; decide
  unfold acceptFields ordinaryCommand
  cases operandLegal op a
  · simp [h1, raise_eq_recordError]
  · simp only [h1, h2, h3, if_false, Bool.not_true, Bool.false_eq_true, Bool.true_eq_false]
    by_cases he : e.err = .noError <;> simp [he, raise]

theorem operand_zero {op : BitVec 4} {a : BitVec 28} (h : operandLegal op a = (a == 0))
    (hl : operandLegal op a = true) : a = 0 := by
  rw [h] at hl
  simpa using hl

/-- What the engine is after an ordinary command that executes and raises nothing (R226, R227). -/
def OrdinaryEffect (i : Instr) (e e' : Engine) : Prop :=
  (i = .nop 0 ∧ e' = { e with busy := true }) ∨
  (∃ g : Variant, i = .select g.code 0 ∧
    e' = { e with variant := g, seeded := false, fifo := [], busy := true }) ∨
  (i = .seedClear 0 ∧ e' = { e with slen := 0, busy := true }) ∨
  (∃ b, i = .seedByte b 0 ∧ e.slen ≠ 256 ∧
    e' = { e with seedBuf := e.seedBuf.setIfInBounds e.slen b, slen := e.slen + 1, busy := true }) ∨
  (i = .seed 0 ∧ seedLengthOk e = true ∧
    e' = { seedGenerator e with seeded := true, fifo := [], pend := [], busy := true }) ∨
  (∃ n, i = .produce n 0 ∧ e.seeded = true ∧
    e' = { (generate n.toNat e).2 with pend := (generate n.toNat e).1, busy := true }) ∨
  (i = .discard 0 ∧ e' = { e with fifo := [], busy := true })

/-- `Execute` of a legal operand raises an error or has its row's effect (R226, R227). -/
theorem executeCommand_effects (op : BitVec 4) (a : BitVec 28) (e : Engine) (hd : definedOpcode op = true)
    (hl : operandLegal op a = true) (h15 : op ≠ 0xF) (h14 : op ≠ 0xE) :
    (∃ c, executeCommand op a e = raise c e) ∨ OrdinaryEffect (decodeFields op a) e (executeCommand op a e) := by
  have hop : op = 0 ∨ op = 1 ∨ op = 2 ∨ op = 3 ∨ op = 4 ∨ op = 5 ∨ op = 6 := by
    clear hl; revert op; decide
  rcases hop with h | h | h | h | h | h | h <;> subst h
  · obtain rfl := operand_zero rfl hl
    exact .inr (.inl ⟨rfl, rfl⟩)
  · replace hl : (a.extractLsb' 3 25 == 0 && decide ((a.extractLsb' 0 3).toNat ≤ 4)) = true := hl
    rw [Bool.and_eq_true, beq_iff_eq, decide_eq_true_eq] at hl
    obtain ⟨g, hg⟩ := Variant.code_of_le _ hl.2
    refine .inr (.inr (.inl ⟨g, congrArg₂ Instr.select hg hl.1, ?_⟩))
    change selectEffect _ _ = _
    simp [selectEffect, hg]
  · obtain rfl := operand_zero rfl hl
    exact .inr (.inr (.inr (.inl ⟨rfl, rfl⟩)))
  · replace hl : (a.extractLsb' 8 20 == 0) = true := hl
    rw [beq_iff_eq] at hl
    change (∃ c, seedByteEffect (a.extractLsb' 0 8) e = _) ∨ _
    by_cases hs : e.slen = 256
    · exact .inl ⟨.seedOvf, by simp [seedByteEffect, Config.seedMax, hs]⟩
    · refine .inr (.inr (.inr (.inr (.inl ⟨a.extractLsb' 0 8, congrArg₂ Instr.seedByte rfl hl, hs, ?_⟩))))
      change seedByteEffect (a.extractLsb' 0 8) e = _
      simp [seedByteEffect, Config.seedMax, hs]
  · obtain rfl := operand_zero rfl hl
    change (∃ c, seedEffect e = _) ∨ _
    by_cases hs : seedLengthOk e = true
    · refine .inr (.inr (.inr (.inr (.inr (.inl ⟨rfl, hs, ?_⟩)))))
      change seedEffect e = _
      rw [seedEffect, if_pos hs]
    · exact .inl ⟨.seedLen, by rw [seedEffect, if_neg hs]⟩
  · replace hl : (a.extractLsb' 24 4 == 0) = true := hl
    rw [beq_iff_eq] at hl
    change (∃ c, produceEffect (a.extractLsb' 0 24).toNat e = _) ∨ _
    by_cases hs : e.seeded = true
    · refine .inr (.inr (.inr (.inr (.inr (.inr (.inl
        ⟨a.extractLsb' 0 24, congrArg₂ Instr.produce rfl hl, hs, ?_⟩))))))
      change produceEffect (a.extractLsb' 0 24).toNat e = _
      rw [produceEffect, if_pos hs]
    · exact .inl ⟨.notSeeded, by rw [produceEffect, if_neg hs]⟩
  · obtain rfl := operand_zero rfl hl
    exact .inr (.inr (.inr (.inr (.inr (.inr (.inr ⟨rfl, rfl⟩))))))

/-- All that accepting a word can do (R225, R227). -/
theorem acceptFields_effects (op : BitVec 4) (a : BitVec 28) (e : Engine) :
    (∃ c, acceptFields op a e = raise c e) ∨
    (decodeFields op a = .softReset 0 ∧ acceptFields op a e = { Engine.reset with busy := true }) ∨
    (decodeFields op a = .clearErr 0 ∧ acceptFields op a e = { e with err := .noError }) ∨
    (e.err ≠ .noError ∧ acceptFields op a e = e) ∨
    (e.err = .noError ∧ e.busy = false ∧ OrdinaryEffect (decodeFields op a) e (acceptFields op a e)) := by
  rcases acceptFields_cases op a e with ⟨_, h⟩ | ⟨_, _, h⟩ | ⟨hl, rfl, h⟩ | ⟨hl, rfl, h⟩ | ⟨_, he, h⟩ |
    ⟨_, he, _, h⟩ | ⟨hd, hl, h15, h14, he, hb, h⟩
  · exact .inl ⟨_, h⟩
  · exact .inl ⟨_, h⟩
  · obtain rfl := operand_zero rfl hl
    exact .inr (.inl ⟨rfl, h⟩)
  · obtain rfl := operand_zero rfl hl
    exact .inr (.inr (.inl ⟨rfl, h⟩))
  · exact .inr (.inr (.inr (.inl ⟨he, h⟩)))
  · exact .inl ⟨.busyErr, by rw [h, raise_of_noError _ he]⟩
  · rw [h]
    rcases executeCommand_effects op a e hd hl h15 h14 with hx | hx
    · exact .inl hx
    · exact .inr (.inr (.inr (.inr ⟨he, hb, hx⟩)))

/-! ### Execution -/

theorem commandOf_decodeFields (op : BitVec 4) (a : BitVec 28) : commandOf (decodeFields op a) = decodeFields op a := by
  rcases opcode_cases op with h | h | h | h | h | h | h | h | h | h | h | h | h | h | h | h <;> subst h <;> rfl

/-- All that executing an instruction can do: accept a word, reset, pop, return a read, or nothing. -/
theorem exec_effects (i : Instr) (s t : State) (h : exec i s = .next t) :
    (∃ op a, commandOf i = decodeFields op a ∧ t = s.withEngine (acceptFields op a s.engine)) ∨
    (i = .reset ∧ t = s.withEngine Engine.reset) ∨
    (i = .rdOut ∧ t = (s.withEngine (popFifo s.engine).2).returnRead (outWord (popFifo s.engine).1)) ∨
    ((∃ v, t = s.returnRead v) ∧ i ≠ .rdOut ∧ ∃ offset, actionOf i = .read 4 offset) ∨
    (t = s ∧ ∃ offset v, actionOf i = .write 4 offset v) := by
  cases i <;> have ht := (Host.Outcome.next.inj h).symm
  case select v rest => exact .inl ⟨1, rest ++ v, (decodeFields_select v rest).symm, ht⟩
  case seedByte b rest => exact .inl ⟨3, rest ++ b, (decodeFields_seedByte b rest).symm, ht⟩
  case produce n rest => exact .inl ⟨5, rest ++ n, (decodeFields_produce n rest).symm, ht⟩
  case wrCmd w => exact .inl ⟨opcodeField w, operandField w, rfl, ht⟩
  case reset => exact .inr (.inl ⟨rfl, ht⟩)
  case rdOut => exact .inr (.inr (.inl ⟨rfl, ht⟩))
  all_goals first
    | exact .inr (.inr (.inr (.inl ⟨⟨_, ht⟩, by simp, _, rfl⟩)))
    | exact .inr (.inr (.inr (.inr ⟨ht, _, _, actionOf_writeBits _ _ (by decide)⟩)))
    | exact .inl ⟨0x0, _, rfl, ht⟩
    | exact .inl ⟨0x2, _, rfl, ht⟩
    | exact .inl ⟨0x4, _, rfl, ht⟩
    | exact .inl ⟨0x6, _, rfl, ht⟩
    | exact .inl ⟨0x7, _, rfl, ht⟩
    | exact .inl ⟨0x8, _, rfl, ht⟩
    | exact .inl ⟨0x9, _, rfl, ht⟩
    | exact .inl ⟨0xA, _, rfl, ht⟩
    | exact .inl ⟨0xB, _, rfl, ht⟩
    | exact .inl ⟨0xC, _, rfl, ht⟩
    | exact .inl ⟨0xD, _, rfl, ht⟩
    | exact .inl ⟨0xE, _, rfl, ht⟩
    | exact .inl ⟨0xF, _, rfl, ht⟩

end Sys2Proof.Machine
end

