-- ==== Sys2Proof/Laws/HostRun.lean ====
section
/-! SUPPORT. What each turn of a host program's run does (30_encoding.md R113, R114), and that weakly fair runs exist
(00_scope.md R16). -/

namespace Sys2Proof.Machine

/-! ### The bits the loops look at -/

/-- Bit 0 of `STATUS` is `BUSY` (R33). -/
theorem statusWord_busy (e : Engine) : (statusWord e).getLsbD 0 = e.busy := by
  unfold statusWord
  cases e.variant <;> cases e.seeded <;> cases e.busy <;> cases e.err <;> decide

/-- Bits 11:8 of `STATUS` are `ERR` (R33). -/
theorem statusWord_err (e : Engine) : (statusWord e).extractLsb' 8 4 = e.err.code := by
  unfold statusWord
  cases e.variant <;> cases e.seeded <;> cases e.busy <;> cases e.err <;> decide

theorem outWord_valid (b : Byte) : (outWord (some b)).getLsbD 8 = true := by revert b; decide

theorem outWord_data (b : Byte) : (outWord (some b)).extractLsb' 0 8 = b := by revert b; decide

/-! ### One turn -/

theorem returnedValue_returnRead (s t : State) (v : Word) (h : t.observed = s.observed) :
    returnedValue s (t.returnRead v) = some v := by
  simp [returnedValue, h]

/-- The engine's turn is its step, where one is enabled (R200, R201). -/
theorem engineTurn_eq (depth : Nat) (c : HostState) :
    engineTurn depth c =
      if pushEnabled depth c.machine.engine || doneEnabled c.machine.engine then
        some { c with machine := c.machine.withEngine (engineStep depth c.machine.engine) }
      else none := rfl

/-- A performed access leaves the machine in a state that the verdict is passed on. -/
theorem hostTurn_access {depth : Nat} {c : HostState} {a : BusAction} {i : Instr} {t : State} {rest : List HostOp}
    (hf : c.failed = false) (hp : c.program = .access a :: rest) (ha : decodeAction a = .ok i)
    (ht : exec i c.machine = .next t) :
    hostTurn depth c = some { c with machine := t, program := rest } := by
  have hs : stepAt depth (c.machine.withTurn (.host a)) = .next t := by
    simpa [stepAt, takeTurn, State.withTurn, ha] using ht
  simp [hostTurn, hf, hp, HostOp.nextAccess, hs, HostState.judged, HostOp.judge]

/-- `WAIT_IDLE` repeats its read while `BUSY = 1` (R113). -/
theorem hostTurn_waitIdle {depth : Nat} {c : HostState} {rest : List HostOp} (hf : c.failed = false)
    (hp : c.program = .waitIdle :: rest) :
    hostTurn depth c = some { c with machine := c.machine.returnRead (statusWord c.machine.engine),
                                     program := if c.machine.engine.busy then .waitIdle :: rest else rest } := by
  have hs : stepAt depth (c.machine.withTurn (.host (.read 4 0x08)))
      = .next (c.machine.returnRead (statusWord c.machine.engine)) := rfl
  simp only [hostTurn, hf, hp, HostOp.nextAccess, hs, HostState.judged, returnedValue_returnRead _ _ _ rfl,
    HostOp.judge, statusWord_busy]
  cases c.machine.engine.busy <;> simp [← hp]

/-- `CHECK_OK` fails on a pending error (R113). -/
theorem hostTurn_checkOk {depth : Nat} {c : HostState} {rest : List HostOp} (hf : c.failed = false)
    (hp : c.program = .checkOk :: rest) (he : c.machine.engine.err = .noError) :
    hostTurn depth c = some { c with machine := c.machine.returnRead (statusWord c.machine.engine),
                                     program := rest } := by
  have hs : stepAt depth (c.machine.withTurn (.host (.read 4 0x08)))
      = .next (c.machine.returnRead (statusWord c.machine.engine)) := rfl
  simp [hostTurn, hf, hp, HostOp.nextAccess, hs, HostState.judged, returnedValue_returnRead, HostOp.judge,
    statusWord_err, he, ErrCode.code]

/-- `POP` repeats its read while the FIFO is empty (R113, R203). -/
theorem hostTurn_pop_empty {depth : Nat} {c : HostState} {rest : List HostOp} (hf : c.failed = false)
    (hp : c.program = .pop :: rest) (he : c.machine.engine.fifo = []) :
    hostTurn depth c = some { c with machine := c.machine.returnRead 0 } := by
  have hs : stepAt depth (c.machine.withTurn (.host (.read 4 0x0C))) = .next (c.machine.returnRead 0) := by
    simp [stepAt, takeTurn, State.withTurn, decodeAction, decodeRead, exec, execRdOut, popFifo, he, outWord,
      State.withEngine]
  simp [hostTurn, hf, hp, HostOp.nextAccess, hs, HostState.judged, returnedValue_returnRead, HostOp.judge]

/-- `POP` collects the head of a FIFO that is not empty (R113, R203). -/
theorem hostTurn_pop_byte {depth : Nat} {c : HostState} {rest : List HostOp} {b : Byte} {queue : List Byte}
    (hf : c.failed = false) (hp : c.program = .pop :: rest) (he : c.machine.engine.fifo = b :: queue) :
    hostTurn depth c = some { c with
      machine := (c.machine.withEngine { c.machine.engine with fifo := queue }).returnRead (outWord (some b)),
      program := rest, collected := c.collected ++ [b] } := by
  have hs : stepAt depth (c.machine.withTurn (.host (.read 4 0x0C)))
      = .next ((c.machine.withEngine { c.machine.engine with fifo := queue }).returnRead (outWord (some b))) := by
    simp [stepAt, takeTurn, State.withTurn, decodeAction, decodeRead, exec, execRdOut, popFifo, he, State.withEngine]
  have hv := returnedValue_returnRead c.machine (c.machine.withEngine { c.machine.engine with fifo := queue })
    (outWord (some b)) rfl
  simp only [hostTurn, hf, hp, HostOp.nextAccess, hs, HostState.judged, hv, HostOp.judge, outWord_valid,
    outWord_data, if_true]

/-! ### Weakly fair runs -/

/-- The engine first, then the host, and rest where neither has a step. -/
def eagerTurn (depth : Nat) (c : HostState) : HostState :=
  match engineTurn depth c with
  | some d => d
  | none =>
    match hostTurn depth c with
    | some d => d
    | none => c

/-- The run that lets the engine move first. -/
def eagerRun (depth : Nat) (c : HostState) : Nat → HostState
  | 0 => c
  | n + 1 => eagerTurn depth (eagerRun depth c n)

theorem engineTurn_isSome {depth : Nat} {c : HostState}
    (h : pushEnabled depth c.machine.engine = true ∨ doneEnabled c.machine.engine = true) :
    ∃ d, engineTurn depth c = some d := by
  rw [engineTurn_eq]
  exact ⟨_, if_pos (by simpa using h)⟩

/-- Every host state starts a weakly fair run, so what is said of all of them is not empty. -/
theorem eagerRun_fair (depth : Nat) (c : HostState) : FairRun depth (eagerRun depth c) := by
  have taken : ∀ n, pushEnabled depth (eagerRun depth c n).machine.engine = true ∨
      doneEnabled (eagerRun depth c n).machine.engine = true →
      engineTurn depth (eagerRun depth c n) = some (eagerRun depth c (n + 1)) := by
    intro n h
    obtain ⟨d, hd⟩ := engineTurn_isSome h
    simp [eagerRun, eagerTurn, hd]
  refine ⟨fun n => ?_, fun n => ⟨n, Nat.le_refl n, fun h => taken n (.inl h)⟩,
    fun n => ⟨n, Nat.le_refl n, fun h => taken n (.inr h)⟩⟩
  rcases he : engineTurn depth (eagerRun depth c n) with _ | d
  · rcases hh : hostTurn depth (eagerRun depth c n) with _ | d
    · exact .inr (.inr ⟨rfl, rfl, by simp [eagerRun, eagerTurn, he, hh]⟩)
    · exact .inl (by simp [eagerRun, eagerTurn, he, hh])
  · exact .inr (.inl (by simp [eagerRun, eagerTurn, he]))

end Sys2Proof.Machine
end

