-- ==== Sys2Proof/Laws/PerInstr.lean ====
section
/-! SUPPORT. Statements about every instruction as syntax, one lemma per constructor. -/

namespace Sys2Proof.Laws.EncodingFitsTable

/-- The fixed bits spec/opcode_table.json gives an instruction's row: highest bit, lowest bit, value. RESET's row has
none. -/
def fixedField : Instr → Option (Nat × Nat × Nat)
  | .nop _ => some (31, 0, 0)
  | .select _ _ => some (31, 3, 33554432)
  | .seedClear _ => some (31, 0, 536870912)
  | .seedByte _ _ => some (31, 8, 3145728)
  | .seed _ => some (31, 0, 1073741824)
  | .produce _ _ => some (31, 24, 80)
  | .discard _ => some (31, 0, 1610612736)
  | .clearErr _ => some (31, 0, 3758096384)
  | .softReset _ => some (31, 0, 4026531840)
  | .reserved7 _ => some (31, 28, 7)
  | .reserved8 _ => some (31, 28, 8)
  | .reserved9 _ => some (31, 28, 9)
  | .reservedA _ => some (31, 28, 10)
  | .reservedB _ => some (31, 28, 11)
  | .reservedC _ => some (31, 28, 12)
  | .reservedD _ => some (31, 28, 13)
  | .rdId => some (5, 2, 0)
  | .rdCmd => some (5, 2, 1)
  | .rdStatus => some (5, 2, 2)
  | .rdOut => some (5, 2, 3)
  | .rdOutcnt => some (5, 2, 4)
  | .rdSeedlen => some (5, 2, 5)
  | .rdRemain => some (5, 2, 6)
  | .wrCmd _ => some (5, 2, 1)
  | .rdReserved1C => some (5, 2, 7)
  | .rdReserved20 => some (5, 2, 8)
  | .rdReserved24 => some (5, 2, 9)
  | .rdReserved28 => some (5, 2, 10)
  | .rdReserved2C => some (5, 2, 11)
  | .rdReserved30 => some (5, 2, 12)
  | .rdReserved34 => some (5, 2, 13)
  | .rdReserved38 => some (5, 2, 14)
  | .rdReserved3C => some (5, 2, 15)
  | .wrId _ => some (5, 2, 0)
  | .wrStatus _ => some (5, 2, 2)
  | .wrOut _ => some (5, 2, 3)
  | .wrOutcnt _ => some (5, 2, 4)
  | .wrSeedlen _ => some (5, 2, 5)
  | .wrRemain _ => some (5, 2, 6)
  | .wrReserved1C _ => some (5, 2, 7)
  | .wrReserved20 _ => some (5, 2, 8)
  | .wrReserved24 _ => some (5, 2, 9)
  | .wrReserved28 _ => some (5, 2, 10)
  | .wrReserved2C _ => some (5, 2, 11)
  | .wrReserved30 _ => some (5, 2, 12)
  | .wrReserved34 _ => some (5, 2, 13)
  | .wrReserved38 _ => some (5, 2, 14)
  | .wrReserved3C _ => some (5, 2, 15)
  | .reset => none

/-- Bits `hi..lo` of `w` have the given value. -/
def FieldIs (w : Nat) : Option (Nat × Nat × Nat) → Prop
  | none => True
  | some (hi, lo, value) => w / 2 ^ lo % 2 ^ (hi + 1 - lo) = value

/-- A well-formed instruction's word has the fixed bits of its row. -/
def Statement (i : Instr) : Prop := i.wellFormed = true → FieldIs (encode i).2 (fixedField i)

theorem commandWord_toNat (op : BitVec 4) (a : BitVec 28) :
    (commandWord op a).toNat = op.toNat * 2 ^ 28 + a.toNat := by
  rw [commandWord, BitVec.toNat_append, Nat.shiftLeft_eq, ← Nat.shiftLeft_eq,
    ← Nat.shiftLeft_add_eq_or_of_lt a.isLt, Nat.shiftLeft_eq]

theorem nop (operand : BitVec 28) : Statement (.nop operand) := by
  intro h
  simp_all [Instr.wellFormed, FieldIs, fixedField, encode, commandWord]

theorem select (v : BitVec 3) (rest : BitVec 25) : Statement (.select v rest) := by
  intro h
  have := v.isLt
  have hr : rest = 0 := by simp_all [Instr.wellFormed]
  subst hr
  simp only [FieldIs, fixedField, encode, commandWord_toNat, BitVec.toNat_append]
  simp
  omega

theorem seedClear (operand : BitVec 28) : Statement (.seedClear operand) := by
  intro h
  simp_all [Instr.wellFormed, FieldIs, fixedField, encode, commandWord]

theorem seedByte (b : Byte) (rest : BitVec 20) : Statement (.seedByte b rest) := by
  intro h
  have := b.isLt
  have hr : rest = 0 := by simp_all [Instr.wellFormed]
  subst hr
  simp only [FieldIs, fixedField, encode, commandWord_toNat, BitVec.toNat_append]
  simp
  omega

theorem seed (operand : BitVec 28) : Statement (.seed operand) := by
  intro h
  simp_all [Instr.wellFormed, FieldIs, fixedField, encode, commandWord]

theorem produce (n : BitVec 24) (rest : BitVec 4) : Statement (.produce n rest) := by
  intro h
  have := n.isLt
  have hr : rest = 0 := by simp_all [Instr.wellFormed]
  subst hr
  simp only [FieldIs, fixedField, encode, commandWord_toNat, BitVec.toNat_append]
  simp
  omega

theorem discard (operand : BitVec 28) : Statement (.discard operand) := by
  intro h
  simp_all [Instr.wellFormed, FieldIs, fixedField, encode, commandWord]

theorem clearErr (operand : BitVec 28) : Statement (.clearErr operand) := by
  intro h
  simp_all [Instr.wellFormed, FieldIs, fixedField, encode, commandWord]

theorem softReset (operand : BitVec 28) : Statement (.softReset operand) := by
  intro h
  simp_all [Instr.wellFormed, FieldIs, fixedField, encode, commandWord]

theorem reserved7 (operand : BitVec 28) : Statement (.reserved7 operand) := by
  have := operand.isLt
  simp only [Statement, FieldIs, fixedField, encode, commandWord_toNat]
  simp
  omega

theorem reserved8 (operand : BitVec 28) : Statement (.reserved8 operand) := by
  have := operand.isLt
  simp only [Statement, FieldIs, fixedField, encode, commandWord_toNat]
  simp
  omega

theorem reserved9 (operand : BitVec 28) : Statement (.reserved9 operand) := by
  have := operand.isLt
  simp only [Statement, FieldIs, fixedField, encode, commandWord_toNat]
  simp
  omega

theorem reservedA (operand : BitVec 28) : Statement (.reservedA operand) := by
  have := operand.isLt
  simp only [Statement, FieldIs, fixedField, encode, commandWord_toNat]
  simp
  omega

theorem reservedB (operand : BitVec 28) : Statement (.reservedB operand) := by
  have := operand.isLt
  simp only [Statement, FieldIs, fixedField, encode, commandWord_toNat]
  simp
  omega

theorem reservedC (operand : BitVec 28) : Statement (.reservedC operand) := by
  have := operand.isLt
  simp only [Statement, FieldIs, fixedField, encode, commandWord_toNat]
  simp
  omega

theorem reservedD (operand : BitVec 28) : Statement (.reservedD operand) := by
  have := operand.isLt
  simp only [Statement, FieldIs, fixedField, encode, commandWord_toNat]
  simp
  omega

theorem rdId : Statement .rdId := by
  simp [Statement, FieldIs, fixedField, encode, readBits]

theorem rdCmd : Statement .rdCmd := by
  simp [Statement, FieldIs, fixedField, encode, readBits]

theorem rdStatus : Statement .rdStatus := by
  simp [Statement, FieldIs, fixedField, encode, readBits]

theorem rdOut : Statement .rdOut := by
  simp [Statement, FieldIs, fixedField, encode, readBits]

theorem rdOutcnt : Statement .rdOutcnt := by
  simp [Statement, FieldIs, fixedField, encode, readBits]

theorem rdSeedlen : Statement .rdSeedlen := by
  simp [Statement, FieldIs, fixedField, encode, readBits]

theorem rdRemain : Statement .rdRemain := by
  simp [Statement, FieldIs, fixedField, encode, readBits]

theorem wrCmd (w : Word) : Statement (.wrCmd w) := by
  simp only [Statement, FieldIs, fixedField, encode, writeBits]
  omega

theorem rdReserved1C : Statement .rdReserved1C := by
  simp [Statement, FieldIs, fixedField, encode, readBits]

theorem rdReserved20 : Statement .rdReserved20 := by
  simp [Statement, FieldIs, fixedField, encode, readBits]

theorem rdReserved24 : Statement .rdReserved24 := by
  simp [Statement, FieldIs, fixedField, encode, readBits]

theorem rdReserved28 : Statement .rdReserved28 := by
  simp [Statement, FieldIs, fixedField, encode, readBits]

theorem rdReserved2C : Statement .rdReserved2C := by
  simp [Statement, FieldIs, fixedField, encode, readBits]

theorem rdReserved30 : Statement .rdReserved30 := by
  simp [Statement, FieldIs, fixedField, encode, readBits]

theorem rdReserved34 : Statement .rdReserved34 := by
  simp [Statement, FieldIs, fixedField, encode, readBits]

theorem rdReserved38 : Statement .rdReserved38 := by
  simp [Statement, FieldIs, fixedField, encode, readBits]

theorem rdReserved3C : Statement .rdReserved3C := by
  simp [Statement, FieldIs, fixedField, encode, readBits]

theorem wrId (value : Word) : Statement (.wrId value) := by
  simp only [Statement, FieldIs, fixedField, encode, writeBits]
  omega

theorem wrStatus (value : Word) : Statement (.wrStatus value) := by
  simp only [Statement, FieldIs, fixedField, encode, writeBits]
  omega

theorem wrOut (value : Word) : Statement (.wrOut value) := by
  simp only [Statement, FieldIs, fixedField, encode, writeBits]
  omega

theorem wrOutcnt (value : Word) : Statement (.wrOutcnt value) := by
  simp only [Statement, FieldIs, fixedField, encode, writeBits]
  omega

theorem wrSeedlen (value : Word) : Statement (.wrSeedlen value) := by
  simp only [Statement, FieldIs, fixedField, encode, writeBits]
  omega

theorem wrRemain (value : Word) : Statement (.wrRemain value) := by
  simp only [Statement, FieldIs, fixedField, encode, writeBits]
  omega

theorem wrReserved1C (value : Word) : Statement (.wrReserved1C value) := by
  simp only [Statement, FieldIs, fixedField, encode, writeBits]
  omega

theorem wrReserved20 (value : Word) : Statement (.wrReserved20 value) := by
  simp only [Statement, FieldIs, fixedField, encode, writeBits]
  omega

theorem wrReserved24 (value : Word) : Statement (.wrReserved24 value) := by
  simp only [Statement, FieldIs, fixedField, encode, writeBits]
  omega

theorem wrReserved28 (value : Word) : Statement (.wrReserved28 value) := by
  simp only [Statement, FieldIs, fixedField, encode, writeBits]
  omega

theorem wrReserved2C (value : Word) : Statement (.wrReserved2C value) := by
  simp only [Statement, FieldIs, fixedField, encode, writeBits]
  omega

theorem wrReserved30 (value : Word) : Statement (.wrReserved30 value) := by
  simp only [Statement, FieldIs, fixedField, encode, writeBits]
  omega

theorem wrReserved34 (value : Word) : Statement (.wrReserved34 value) := by
  simp only [Statement, FieldIs, fixedField, encode, writeBits]
  omega

theorem wrReserved38 (value : Word) : Statement (.wrReserved38 value) := by
  simp only [Statement, FieldIs, fixedField, encode, writeBits]
  omega

theorem wrReserved3C (value : Word) : Statement (.wrReserved3C value) := by
  simp only [Statement, FieldIs, fixedField, encode, writeBits]
  omega

theorem reset : Statement .reset := by
  simp [Statement, FieldIs, fixedField]

end Sys2Proof.Laws.EncodingFitsTable
end

