-- ==== Sys2Proof/Tests/Slice0.lean ====
section
/-! SUPPORT. The model's own tests and the witnesses of the statements' hypotheses. Expected results come from
spec/95_test_vectors.md (V-...), from the rule a comment names, or from the encodings of 30_encoding.md. -/

set_option maxRecDepth 100000

namespace Sys2Proof.Tests

open Sys2Proof.Machine

/-! ### Ill-formed terms, one for each check (R92, R100) -/

theorem test_wellFormed_nop : (Instr.nop 1).wellFormed = false := by decide
theorem test_wellFormed_select_code : (Instr.select 5 0).wellFormed = false := by decide
theorem test_wellFormed_select_rest : (Instr.select 0 1).wellFormed = false := by decide
theorem test_wellFormed_seedClear : (Instr.seedClear 0x8000000).wellFormed = false := by decide
theorem test_wellFormed_seedByte : (Instr.seedByte 0 1).wellFormed = false := by decide
theorem test_wellFormed_seed : (Instr.seed 1).wellFormed = false := by decide
theorem test_wellFormed_produce : (Instr.produce 0 1).wellFormed = false := by decide
theorem test_wellFormed_discard : (Instr.discard 1).wellFormed = false := by decide
theorem test_wellFormed_clearErr : (Instr.clearErr 1).wellFormed = false := by decide
theorem test_wellFormed_softReset : (Instr.softReset 1).wellFormed = false := by decide

/-! ### Decoding -/

/-- Words written out from the formats of R92: the opcode, then the operand. -/
theorem test_decode_config_commands :
    decodeCommand 0b00000000000000000000000000000000 = .nop 0 ∧
    decodeCommand 0b00010000000000000000000000000011 = .select 3 0 ∧
    decodeCommand 0b00010000000000000000000000001010 = .select 2 1 ∧
    decodeCommand 0b00100000000000000000000000000000 = .seedClear 0 ∧
    decodeCommand 0b00110000000000000000000010000001 = .seedByte 0x81 0 ∧
    decodeCommand 0b00110000000000000000000100000010 = .seedByte 0x02 1 ∧
    decodeCommand 0b01000000000000000000000000000000 = .seed 0 := by decide

theorem test_decode_output_commands :
    decodeCommand 0b01010000100000000000000000000001 = .produce 0x800001 0 ∧
    decodeCommand 0b01010001000000000000000000000001 = .produce 1 1 ∧
    decodeCommand 0b01100000000000000000000000000000 = .discard 0 := by decide

theorem test_decode_control_commands :
    decodeCommand 0b11100000000000000000000000000000 = .clearErr 0 ∧
    decodeCommand 0b11110000000000000000000000000000 = .softReset 0 := by decide

/-- R99: "this includes the words 0x70000000 to 0xDFFFFFFF". -/
theorem test_decode_reserved_opcodes :
    decodeCommand 0x70000000 = .reserved7 0 ∧ decodeCommand 0x80000001 = .reserved8 1 ∧
    decodeCommand 0x90000000 = .reserved9 0 ∧ decodeCommand 0xA0000000 = .reservedA 0 ∧
    decodeCommand 0xB0000000 = .reservedB 0 ∧ decodeCommand 0xC0000000 = .reservedC 0 ∧
    decodeCommand 0xDFFFFFFF = .reservedD 0xFFFFFFF := by decide

/-- R97, the register map of R31 to R37. -/
theorem test_decode_register_accesses :
    decodeAction (.read 4 0b000000) = .ok .rdId ∧ decodeAction (.read 4 0b000100) = .ok .rdCmd ∧
    decodeAction (.read 4 0b001000) = .ok .rdStatus ∧ decodeAction (.read 4 0b001100) = .ok .rdOut ∧
    decodeAction (.read 4 0b010000) = .ok .rdOutcnt ∧ decodeAction (.read 4 0b010100) = .ok .rdSeedlen ∧
    decodeAction (.read 4 0b011000) = .ok .rdRemain ∧
    decodeAction (.write 4 0b000000 7) = .ok (.wrId 7) ∧ decodeAction (.write 4 0b000100 7) = .ok (.wrCmd 7) ∧
    decodeAction (.write 4 0b001000 7) = .ok (.wrStatus 7) ∧ decodeAction (.write 4 0b001100 7) = .ok (.wrOut 7) ∧
    decodeAction (.write 4 0b010000 7) = .ok (.wrOutcnt 7) ∧
    decodeAction (.write 4 0b010100 7) = .ok (.wrSeedlen 7) ∧
    decodeAction (.write 4 0b011000 7) = .ok (.wrRemain 7) ∧ decodeAction .reset = .ok .reset :=
  ⟨rfl, rfl, rfl, rfl, rfl, rfl, rfl, rfl, rfl, rfl, rfl, rfl, rfl, rfl, rfl⟩

/-- R38, R97. -/
theorem test_decode_reserved_accesses :
    decodeAction (.read 4 0x1C) = .ok .rdReserved1C ∧ decodeAction (.read 4 0x20) = .ok .rdReserved20 ∧
    decodeAction (.read 4 0x24) = .ok .rdReserved24 ∧ decodeAction (.read 4 0x28) = .ok .rdReserved28 ∧
    decodeAction (.read 4 0x2C) = .ok .rdReserved2C ∧ decodeAction (.read 4 0x30) = .ok .rdReserved30 ∧
    decodeAction (.read 4 0x34) = .ok .rdReserved34 ∧ decodeAction (.read 4 0x38) = .ok .rdReserved38 ∧
    decodeAction (.read 4 0x3C) = .ok .rdReserved3C ∧
    decodeAction (.write 4 0x1C 7) = .ok (.wrReserved1C 7) ∧ decodeAction (.write 4 0x20 7) = .ok (.wrReserved20 7) ∧
    decodeAction (.write 4 0x24 7) = .ok (.wrReserved24 7) ∧ decodeAction (.write 4 0x28 7) = .ok (.wrReserved28 7) ∧
    decodeAction (.write 4 0x2C 7) = .ok (.wrReserved2C 7) ∧ decodeAction (.write 4 0x30 7) = .ok (.wrReserved30 7) ∧
    decodeAction (.write 4 0x34 7) = .ok (.wrReserved34 7) ∧ decodeAction (.write 4 0x38 7) = .ok (.wrReserved38 7) ∧
    decodeAction (.write 4 0x3C 7) = .ok (.wrReserved3C 7) :=
  ⟨rfl, rfl, rfl, rfl, rfl, rfl, rfl, rfl, rfl, rfl, rfl, rfl, rfl, rfl, rfl, rfl, rfl, rfl⟩

/-- R66: what is not admitted is rejected, each kind under its name. -/
theorem test_decode_rejections :
    decodeAction (.read 1 0x0C) = .error .narrow ∧ decodeAction (.write 2 0x04 0) = .error .narrow ∧
    decodeAction (.read 4 0x0E) = .error .misaligned ∧ decodeAction (.write 4 0x3D 0) = .error .misaligned ∧
    decodeAction (.read 4 0x40) = .error .outside ∧ decodeAction (.write 4 0x44 0) = .error .outside :=
  ⟨rfl, rfl, rfl, rfl, rfl, rfl⟩

/-- The opcode table's own bits: a command's word, a register's offset, no bits for RESET. -/
theorem test_decode_table_words :
    decodeTableWord 32 0x3000004B = some (.seedByte 0x4B 0) ∧ decodeTableWord 8 0b001000 = some .rdStatus ∧
    decodeTableWord 40 0x5000001444 = some (.wrCmd 0x50000014) ∧ decodeTableWord 0 0 = some .reset ∧
    decodeTableWord 8 0b10000000 = none := by decide

/-! ### Commands from reset -/

/-- `STATUS` after a word and `DONE`, from reset. -/
def statusAfter (w : Word) : Word := statusWord (engineStep Config.fifoDepth (acceptCmd w Engine.reset))

/-- V-C1 to V-C8. -/
theorem test_status_config :
    [0x00000000, 0x10000002, 0x10000004, 0x10000005, 0x10000008, 0x3000004B, 0x30000100, 0x40000000].map statusAfter
      = [0x008, 0x008, 0x010, 0x208, 0x208, 0x008, 0x208, 0x508] := by decide

/-- V-C9 to V-C16. -/
theorem test_status_others :
    [0x50001000, 0x51000000, 0x00000001, 0x70000000, 0xD0000000, 0xE0000001, 0xF0000001, 0x60000000].map statusAfter
      = [0x408, 0x208, 0x208, 0x108, 0x108, 0x208, 0x208, 0x008] := by decide

/-- R95, R2: the words of P1's and P4's SELECT, read back in `STATUS` as R33 spells it. -/
theorem test_status_select_legacy : [0x10000000, 0x10000001].map statusAfter = [0x000, 0x004] := by decide

/-! ### Single commands and reads -/

/-- A state whose host has nothing to do. -/
def idle (e : Engine) : State := { engine := e, agenda := [], observed := [] }

/-- The state after an instruction that has a next state. -/
def after (i : Instr) (s : State) : State :=
  match exec i s with
  | .next t => t
  | .fault _ => s
  | .refused _ => s

/-- A seeded legacy generator with the identity table. -/
def legacySeeded : Engine :=
  { Engine.reset with variant := .legacy, seeded := true, legacy := { s := identityTable, i := 0, j := 0 } }

/-- The host is in a NOP's time. -/
def busyEngine : Engine := { Engine.reset with busy := true }

/-- V-E10. -/
theorem test_illegal_operand_before_busy : statusWord (acceptCmd 0x10000007 busyEngine) = 0x209 := by decide

/-- P3, write 11: a byte written while `BUSY` = 1 is error 3. -/
theorem test_busy_error : statusWord (engineStep Config.fifoDepth (acceptCmd 0x30000042 busyEngine)) = 0x308 := by
  decide

/-- V-E11, the CLEAR_ERR. -/
theorem test_clearErr_while_busy : acceptCmd 0xE0000000 busyEngine = busyEngine := rfl

/-- V-E11, the last NOP. -/
theorem test_error_before_busy :
    statusWord (acceptCmd 0x00000000 { busyEngine with err := .illegalOperand }) = 0x209 := by decide

/-- V-E5: the 257th byte. -/
theorem test_seedByte_overflow :
    let e := (after (.seedByte 0x5A 0) (idle { Engine.reset with variant := .legacy, slen := 256 })).engine
    statusWord e = 0x600 ∧ e.err = .seedOvf ∧ e.slen = 256 := by decide

/-- R174. -/
theorem test_seedByte_appends :
    (after (.seedByte 0x5A 0) (idle { Engine.reset with slen := 2 })).engine.seedBuf[2] = 0x5A ∧
    (after (.seedByte 0x5A 0) (idle { Engine.reset with slen := 2 })).engine.slen = 3 := by decide

/-- V-E1, V-E3, V-E4: one byte more than `seedlen`. -/
theorem test_seed_too_long :
    statusWord (after (.seed 0) (idle { Engine.reset with slen := 33 })).engine = 0x508 ∧
    statusWord (after (.seed 0) (idle { Engine.reset with variant := .ctr192, slen := 41 })).engine = 0x50C ∧
    statusWord (after (.seed 0) (idle { Engine.reset with variant := .ctr256, slen := 49 })).engine = 0x510 := by
  decide

/-- V-E2, V-E3, V-E4: `seedlen` bytes, before `DONE`. -/
theorem test_seed_longest :
    statusWord (after (.seed 0) (idle { Engine.reset with slen := 32 })).engine = 0x00B ∧
    statusWord (after (.seed 0) (idle { Engine.reset with variant := .ctr192, slen := 40 })).engine = 0x00F ∧
    statusWord (after (.seed 0) (idle { Engine.reset with variant := .ctr256, slen := 48 })).engine = 0x013 :=
  ⟨rfl, rfl, rfl⟩

/-- R172: SELECT unseeds and empties the FIFO, and keeps the seed buffer's length. -/
theorem test_select_unseeds :
    let e := (after (.select 3 0) (idle { legacySeeded with slen := 5, fifo := [1, 2] })).engine
    e.variant = .ctr192 ∧ e.seeded = false ∧ e.fifo = [] ∧ e.slen = 5 := by decide

/-- R190, R122: the identity table's first keystream byte is S[2] = 2. -/
theorem test_produce_one_byte : (after (.produce 1 0) (idle legacySeeded)).engine.pend = [0x02] := by decide

/-- R191. -/
theorem test_discard_keeps_generator :
    (after (.discard 0) (idle { legacySeeded with fifo := [1, 2] })).engine = { legacySeeded with busy := true } := rfl

/-- V-E9, before `DONE`. -/
theorem test_softReset_while_busy :
    let e := (after (.softReset 0) (idle { busyEngine with variant := .ctr256, pend := [1], fifo := [2] })).engine
    statusWord e = 0x009 ∧ e.fifo = [] ∧ e.pend = [] ∧ e.slen = 0 := by decide

/-- R271. -/
theorem test_reset_clears_busy : (after .reset (idle { busyEngine with pend := [1] })).engine = Engine.reset := rfl

/-- V-E7: the first read of `OUT`. -/
theorem test_rdOut_pops :
    (after .rdOut (idle { Engine.reset with fifo := [0xEB, 0x9F] })).observed = [0x1EB] ∧
    (after .rdOut (idle { Engine.reset with fifo := [0xEB, 0x9F] })).engine.fifo = [0x9F] := by decide

/-- V-E9: `STATUS`, `OUTCNT` and `REMAIN` with a full FIFO and 904 bytes pending. -/
theorem test_counts :
    countWord 4096 = 0x1000 ∧ countWord 904 = 0x388 ∧
    statusWord { Engine.reset with variant := .ctr256, seeded := true, busy := true } = 0x013 := by decide

/-- R200, R201: the engine's turns after a request of one byte, with room for it and without (R8). -/
theorem test_engine_turns :
    let e := { legacySeeded with busy := true, pend := [7], fifo := [6] }
    engineStep 4096 e = { e with pend := [], fifo := [6, 7] } ∧ engineStep 2 e = { e with pend := [], fifo := [6, 7] } ∧
    engineStep 1 e = e ∧ engineStep 1 { legacySeeded with busy := true } = legacySeeded := ⟨rfl, rfl, rfl, rfl⟩

/-- R22: the host's next action is the next instruction, from reset. -/
theorem test_withFetchWord_steps :
    (match step (State.reset.withFetchWord 32 0x3000004B) with
      | .next t => (t.engine.slen, t.engine.seedBuf[0])
      | _ => (0, 0)) = (1, 0x4B) ∧
    (match step (State.reset.withFetchWord 8 0x00) with
      | .next t => t.observed
      | _ => []) = [0x76626967] := by decide

/-! ### The generators -/

/-- V-L1, its first 4 bytes. -/
theorem test_rc4_key : (rc4Produce 4 (rc4Seed [0x4B, 0x65, 0x79])).1 = [0xEB, 0x9F, 0x77, 0x81] := by
  decide +kernel

/-- A value register from its integer. -/
def blockOf (x : Nat) : Block := arrayOf 16 (beBytes 16 x)

/-- V-I1 to V-I5. -/
theorem test_inc :
    inc (blockOf 0) = blockOf 1 ∧ inc (blockOf 0xff) = blockOf 0x100 ∧
    inc (blockOf 0xffffffffffffffff) = blockOf 0x10000000000000000 ∧
    inc (blockOf 0xffffffffffffffffffffffffffffffff) = blockOf 0 ∧
    inc (blockOf 0x00ff00ff00ff00ff00ff00ff00ff00fe) = blockOf 0x00ff00ff00ff00ff00ff00ff00ff00ff := by
  decide +kernel

/-- Bytes from their integer. -/
def bytesOf (n x : Nat) : List Byte := beBytes n x

/-- "test-seed-1", ASCII. -/
def testSeed : List Byte := bytesOf 11 0x746573742d736565642d31

/-- V-A1 to V-A3, published examples of FIPS 197. -/
theorem test_aes :
    let x := blockOf 0x00112233445566778899aabbccddeeff
    aesEncrypt (bytesOf 16 0x000102030405060708090a0b0c0d0e0f) x = blockOf 0x69c4e0d86a7b0430d8cdb78070b4c55a ∧
    aesEncrypt (bytesOf 24 0x000102030405060708090a0b0c0d0e0f1011121314151617) x
      = blockOf 0xdda97ca4864cdfe06eaf70a0ec0d7191 ∧
    aesEncrypt (bytesOf 32 0x000102030405060708090a0b0c0d0e0f101112131415161718191a1b1c1d1e1f) x
      = blockOf 0x8ea2b7ca516745bfeafc49904b496089 := by
  decide +kernel

/-- V-D1, "test-seed-1", with the AES of FIPS 197 for the cipher. -/
theorem test_instantiate :
    drbgInstantiate aesEncrypt 16 testSeed =
      { key := arrayOf 32 (bytesOf 16 0x2c878fbad70d550452522c57a4e7455a),
        v := blockOf 0x0388dace60b6a392f328c2b971b2fe78 } ∧
    drbgInstantiate aesEncrypt 24 testSeed =
      { key := arrayOf 32 (bytesOf 24 0xb956c1feea00922ec423e0f31257243598e7247c07f0fe41),
        v := blockOf 0x1c267e4384b0f6002a3493e66235ee67 } ∧
    drbgInstantiate aesEncrypt 32 testSeed =
      { key := arrayOf 32 (bytesOf 32 0x276af98fea3653dccd4e85f1c4cb738bcea7403d4d606b6e074ec5d3baf39d18),
        v := blockOf 0x726003ca37a62a74d1a2f58e7506358e } := by
  decide +kernel

/-- V-D4 and V-D6b, from the CTR128 state of V-D1. -/
theorem test_generate :
    let d : DrbgState := { key := arrayOf 32 (bytesOf 16 0x2c878fbad70d550452522c57a4e7455a),
                           v := blockOf 0x0388dace60b6a392f328c2b971b2fe78 }
    drbgProduce aesEncrypt 16 0 d =
      ([], { key := arrayOf 32 (bytesOf 16 0x91dd73bbf8cc31e883e741cfb351a23a),
             v := blockOf 0xa9ad336e06f07dcf6c42c829d4376df2 }) ∧
    (drbgProduce aesEncrypt 16 20 d).1 = bytesOf 20 0x91dd73bbf8cc31e883e741cfb351a23aa9ad336e := by
  decide +kernel

/-! ### Host programs -/

/-- P1's reads, with its bytes 0 and 1: `WAIT_IDLE`, then `READ 2` with one empty read between (R113). -/
theorem test_host_program :
    runLines [.waitIdle, .readBytes 2]
      (transcript [.read 4 0x08, .read 4 0x08, .read 4 0x0C, .read 4 0x0C, .read 4 0x0C]
        [0x003, 0x002, 0x1EB, 0x000, 0x19F]) = some [0xEB, 0x9F] := by decide

/-- R113: `CHECK_OK` fails on a pending error, so `DO` has no expansion with these reads. -/
theorem test_host_program_fails :
    runLines [.doCommand 0x40000000]
      (transcript [.write 4 0x04 0x40000000, .read 4 0x08, .read 4 0x08] [0x508, 0x508]) = none := by decide

/-! ### Witnesses: for each statement with hypotheses, values that meet them -/

theorem witness_CommandWordsRoundTrip : encodeCommand (.produce 0xFFFFFF 0xF) = some 0x5FFFFFFF := by decide

/-- Clause by clause, on both sides of each bound. -/
theorem witness_OperandLegalByFormat :
    definedOpcode 1 = true ∧ operandLegal 1 4 = true ∧ operandLegal 1 5 = false ∧ operandLegal 1 8 = false ∧
    definedOpcode 3 = true ∧ operandLegal 3 255 = true ∧ operandLegal 3 256 = false ∧
    definedOpcode 5 = true ∧ operandLegal 5 0xFFFFFF = true ∧ operandLegal 5 0x1000000 = false ∧
    definedOpcode 0xF = true ∧ operandLegal 0xF 0 = true ∧ operandLegal 0xF 1 = false := by decide

theorem witness_ExampleWordsDecode :
    statusAfter 0x51000000 = 0x208 ∧ statusAfter 0x30000100 = 0x208 ∧ statusAfter 0x70000000 = 0x108 := by decide

theorem witness_AssemblerWords : (Instr.select 5 0).wellFormed = false ∧ assemble (.select 5 0) = none := by decide

theorem witness_IllegalOperandIsRecorded :
    (Instr.softReset 1).wellFormed = false ∧ (after (.softReset 1) .reset).engine.err = .illegalOperand := by decide

theorem witness_BusyCommandIsRefused :
    isOrdinary (commandOf (.wrCmd 0x10000004)) = true ∧ (commandOf (.wrCmd 0x10000004)).wellFormed = true ∧
    (idle busyEngine).engine.err = .noError ∧ (idle busyEngine).engine.busy = true ∧
    (after (.wrCmd 0x10000004) (idle busyEngine)).engine.err = .busyErr := by decide

theorem witness_PendingErrorStopsCommands :
    (idle { Engine.reset with err := .seedLen, fifo := [1] }).engine.err ≠ .noError ∧
    isOrdinary (commandOf (.nop 0)) = true ∧
    decodeCommand 0xE0000001 ≠ .clearErr 0 ∧ decodeCommand 0xE0000001 ≠ .softReset 0 ∧
    (idle { Engine.reset with err := .seedLen, fifo := [1] }).engine.fifo = 1 :: [] := by decide

theorem witness_SelectChoosesVariant : 5 ≤ (5 : BitVec 3).toNat ∧ 5 ≤ (7 : BitVec 3).toNat := by decide

theorem witness_SeedByteAppendsByte :
    (idle { Engine.reset with slen := 256 }).engine.slen = 256 ∧
    (idle { Engine.reset with slen := 255 }).engine.slen < 256 ∧ State.reset.engine.slen < 256 := by decide

/-- No byte, the longest seed of each counter DRBG and one byte more, and both legacy variants at 1 and 256 bytes. -/
theorem witness_SeedSeedsSelectedGenerator :
    State.reset.engine.slen = 0 ∧
    Variant.ctr128.keyLen? = some 16 ∧ Variant.ctr192.keyLen? = some 24 ∧ Variant.ctr256.keyLen? = some 32 ∧
    16 + 16 < (idle { Engine.reset with slen := 33 }).engine.slen ∧
    (idle { Engine.reset with slen := 32 }).engine.slen ≤ 16 + 16 ∧
    0 < (idle { Engine.reset with slen := 1 }).engine.slen ∧
    0 < (idle { Engine.reset with variant := .legacy, slen := 1 }).engine.slen ∧
    0 < (idle { Engine.reset with variant := .legacyDrop, slen := 256 }).engine.slen := by decide

theorem witness_ProduceFillsPend :
    State.reset.engine.seeded = false ∧
    (idle legacySeeded).engine.seeded = true ∧ (idle legacySeeded).engine.variant.keyLen? = none ∧
    (idle { Engine.reset with seeded := true }).engine.seeded = true ∧
    (idle { Engine.reset with seeded := true }).engine.variant.keyLen? = some 16 := by decide

theorem witness_ClearErrClearsError : statusWord (idle { Engine.reset with err := .notSeeded }).engine = 0x408 := by
  decide

theorem witness_StatusReadsItsFields :
    (let e := (idle { Engine.reset with seeded := true }).engine;
      e.variant = .ctr128 ∧ e.seeded = true ∧ e.busy = false ∧ e.err = .noError) ∧
    (let e := (idle { Engine.reset with err := .notSeeded }).engine;
      e.variant = .ctr128 ∧ e.seeded = false ∧ e.busy = false ∧ e.err = .notSeeded) := by decide

theorem witness_OutReadPopsFifo :
    State.reset.engine.fifo = [] ∧ (idle { Engine.reset with fifo := [0xEB, 0x9F] }).engine.fifo = [0xEB, 0x9F] ∧
    (idle { Engine.reset with fifo := [0xFF] }).engine.fifo = 0xFF :: [] := by decide

/-- Every bound of the invariants reached at once. -/
def fullEngine : Engine :=
  { Engine.reset with seeded := true, busy := true, slen := 256, fifo := List.replicate 4096 0xAA,
                      pend := List.replicate 0xFFFFFF 0x55 }

theorem fullEngine_inv : EngineInv 4096 fullEngine where
  slen_le := Nat.le_refl _
  fifo_le := by rw [fullEngine, List.length_replicate]
  pend_busy := fun _ => rfl
  pend_seeded := fun _ => rfl
  pend_lt := by rw [fullEngine, List.length_replicate]; decide
  permutation := by intro h; cases h
  unused_key := by
    intro kl _ _ k _ h
    exact Vector.getElem_replicate h

theorem legacySeeded_inv (depth : Nat) : EngineInv depth legacySeeded where
  slen_le := Nat.zero_le _
  fifo_le := Nat.zero_le _
  pend_busy := fun h => absurd rfl h
  pend_seeded := fun h => absurd rfl h
  pend_lt := by decide
  permutation := fun _ _ => identityTable_isPermutation
  unused_key := by intro kl h; cases h

/-- This hardware's depth, and the largest that a 32-bit register can count. -/
theorem witness_CountReadsAreExact :
    (4096 < 2 ^ 32 ∧ EngineInv 4096 (idle fullEngine).engine) ∧
    (4294967295 < 2 ^ 32 ∧ EngineInv 4294967295 (idle legacySeeded).engine) :=
  ⟨⟨by decide, fullEngine_inv⟩, by decide, legacySeeded_inv _⟩

theorem witness_StepRunsDecodedAccess :
    (State.reset.withFetchWord 8 0x3C).agenda = .host (.read 4 0x3C) :: [] ∧
    decodeAction (.read 4 0x3C) = .ok .rdReserved3C := ⟨rfl, rfl⟩

theorem witness_StepRunsTableWord :
    decodeTableWord 32 0xFFFFFFFF = some (.softReset 0xFFFFFFF) ∧ decodeTableWord 8 0x3C = some .rdReserved3C ∧
    decodeTableWord 0 0 = some .reset := by decide

/-- A state whose host is next. -/
def hostNext (a : BusAction) : State := { State.reset with agenda := [.host a] }

theorem witness_OnlyAdmittedAccessesHaveSteps :
    (hostNext (.read 4 0x3C)).agenda = .host (.read 4 0x3C) :: [] ∧ admitted (.read 4 0x3C) = true ∧
    (hostNext (.read 4 0x3E)).agenda = .host (.read 4 0x3E) :: [] ∧ admitted (.read 4 0x3E) = false ∧
    admitted (.write 4 0x40 0) = false ∧ admitted (.read 2 0x00) = false ∧ admitted .reset = true := by decide

/-- The engine next, and the four clauses: a FIFO one byte short of full, one that is full, at the depths 4096 and 1,
`DONE`, and nothing. -/
theorem witness_EngineTurnTakesEnabledStep :
    (idle Engine.reset).agenda = [] ∧ ({ State.reset with agenda := [.engine] } : State).agenda = .engine :: [] ∧
    (let e := { busyEngine with pend := [1], fifo := List.replicate 4095 0 };
      e.pend = 1 :: [] ∧ e.fifo.length < 4096) ∧
    (busyEngine.pend = [] ∧ busyEngine.busy = true) ∧
    (let e := { busyEngine with pend := [1], fifo := List.replicate 4096 0 };
      e.pend ≠ [] ∧ 4096 ≤ e.fifo.length) ∧
    (let e := { busyEngine with pend := [1], fifo := [] }; e.pend = 1 :: [] ∧ e.fifo.length < 1) ∧
    (let e := { busyEngine with pend := [1], fifo := [0] }; e.pend ≠ [] ∧ 1 ≤ e.fifo.length) ∧
    (Engine.reset.pend = [] ∧ Engine.reset.busy = false) := by
  refine ⟨rfl, rfl, ⟨rfl, ?_⟩, ⟨rfl, rfl⟩, ⟨List.cons_ne_nil _ _, ?_⟩, ⟨rfl, Nat.one_pos⟩,
    ⟨List.cons_ne_nil _ _, Nat.le_refl 1⟩, rfl, rfl⟩
  · show (List.replicate 4095 (0 : Byte)).length < 4096
    rw [List.length_replicate]; decide
  · show 4096 ≤ (List.replicate 4096 (0 : Byte)).length
    rw [List.length_replicate]

theorem witness_EngineTurnKeepsTheRest : EngineInv 1 legacySeeded ∧ Quiescent legacySeeded :=
  ⟨legacySeeded_inv 1, rfl⟩

theorem witness_StepKeepsEngineInvariant :
    let s : State := { idle legacySeeded with agenda := [.host (.write 4 0x04 0x50000001)] }
    (EngineInv 4096 s.engine ∧ ∃ t, step s = .next t) ∧ (EngineInv 1 s.engine ∧ ∃ t, stepAt 1 s = .next t) :=
  ⟨⟨legacySeeded_inv _, _, rfl⟩, legacySeeded_inv _, _, rfl⟩

theorem witness_OnlySelectAndResetWriteVariant :
    ∃ t, exec (.select 4 0) .reset = .next t ∧ t.engine.variant ≠ State.reset.engine.variant :=
  ⟨_, rfl, by decide⟩

theorem witness_OnlySeedSetsSeeded :
    (∃ t, exec (.seed 0) (idle { Engine.reset with slen := 1 }) = .next t ∧
      Engine.reset.seeded = false ∧ t.engine.seeded = true) ∧
    (∃ t, exec (.select 4 0) (idle legacySeeded) = .next t ∧ legacySeeded.seeded = true ∧ t.engine.seeded = false) ∧
    (Engine.reset.err = .noError ∧ Engine.reset.busy = false ∧
      seedLengthOk { Engine.reset with slen := 1 } = true ∧ Engine.reset.seeded = false) :=
  ⟨⟨_, rfl, rfl, rfl⟩, ⟨_, rfl, rfl, rfl⟩, rfl, rfl, rfl, rfl⟩

theorem witness_ErrHoldsFirstError :
    (∃ t, exec (.reserved7 0) .reset = .next t ∧ t.engine.err ≠ State.reset.engine.err) ∧
    (∃ t, exec (.clearErr 0) (idle { Engine.reset with err := .seedLen }) = .next t ∧ t.engine.err ≠ .seedLen) :=
  ⟨⟨_, rfl, by decide⟩, _, rfl, by decide⟩

theorem witness_ErrorsArePrecise :
    ∃ t, exec (.produce 1 0) .reset = .next t ∧ t.engine.err ≠ State.reset.engine.err ∧ t.engine.err ≠ .noError :=
  ⟨_, rfl, by decide, by decide⟩

theorem witness_GeneratorAndSeedBufferWriters :
    (∃ t, exec (.produce 1 0) (idle legacySeeded) = .next t ∧ t.engine.legacy ≠ legacySeeded.legacy) ∧
    (∃ t, exec (.softReset 0) (idle { Engine.reset with drbg.v := blockOf 1 }) = .next t ∧
      t.engine.drbg ≠ ({ Engine.reset with drbg.v := blockOf 1 } : Engine).drbg) ∧
    (∃ t, exec (.seedByte 1 0) .reset = .next t ∧ t.engine.slen ≠ State.reset.engine.slen ∧
      t.engine.seedBuf ≠ State.reset.engine.seedBuf) :=
  ⟨⟨_, rfl, fun h => absurd (congrArg LegacyState.i h) (by decide)⟩,
    ⟨_, rfl, fun h => absurd (congrArg (fun d => d.v[15]) h) (by decide)⟩,
    _, rfl, by decide, fun h => absurd (congrArg (fun b => b[0]) h) (by decide)⟩

theorem witness_HostSideFrame :
    (∃ offset, actionOf .rdRemain = .read 4 offset) ∧ ∀ offset, actionOf (.wrCmd 0) ≠ .read 4 offset :=
  ⟨⟨_, rfl⟩, fun _ h => by cases h⟩

/-- A FIFO that the pending bytes fill, at the depths 4096 and 1, there with a host at the end of its program. -/
theorem witness_EngineDrainsWhatFits :
    (let e := { busyEngine with pend := [1, 2], fifo := List.replicate 4094 0 };
      e.busy = true ∧ e.fifo.length + e.pend.length ≤ 4096) ∧
    (let e := { busyEngine with pend := [1] }; e.busy = true ∧ e.fifo.length + e.pend.length ≤ 1 ∧
      IsRun 1 (eagerRun 1 (.start (idle e) [])) ∧ (HostState.start (idle e) []).NoFurtherAccess ∧
      (e.pend ≠ [] → e.busy = true)) := by
  refine ⟨⟨rfl, ?_⟩, rfl, Nat.le_refl 1, (eagerRun_fair _ _).isRun, .inl rfl, fun _ => rfl⟩
  show (List.replicate 4094 (0 : Byte)).length + 2 ≤ 4096
  rw [List.length_replicate]

/-- A host about to perform one operation. -/
def hostAt (o : HostOp) (e : Engine) : HostState :=
  { machine := idle e, program := [o], collected := [], failed := false }

/-- One byte too many at the depth 4096; and, at the depth 1, a host in `WAIT_IDLE` with one byte too many, one at the
end of its program, and a host in `POP` with none. -/
theorem witness_FullFifoStallsEngine :
    (let e := { busyEngine with pend := [1, 2], fifo := List.replicate 4095 0 };
      e.busy = true ∧ e.fifo.length ≤ 4096 ∧ 4096 < e.fifo.length + e.pend.length ∧ 4096 - e.fifo.length ≤ 1) ∧
    (let e := { busyEngine with pend := [1], fifo := [0] };
      IsRun 1 (eagerRun 1 (hostAt .waitIdle e)) ∧ (hostAt .waitIdle e).failed = false ∧
      (hostAt .waitIdle e).program = .waitIdle :: [] ∧ e.busy = true ∧ e.fifo.length ≤ 1 ∧
      1 < e.fifo.length + e.pend.length ∧ IsRun 1 (eagerRun 1 (.start (idle e) [])) ∧
      (HostState.start (idle e) []).NoFurtherAccess) ∧
    (IsRun 1 (eagerRun 1 (hostAt .pop busyEngine)) ∧ (hostAt .pop busyEngine).failed = false ∧
      (hostAt .pop busyEngine).program = .pop :: [] ∧ busyEngine.fifo = [] ∧ busyEngine.pend = []) := by
  have h : (List.replicate 4095 (0 : Byte)).length = 4095 := List.length_replicate
  refine ⟨⟨rfl, ?_, ?_, ?_⟩, ⟨(eagerRun_fair _ _).isRun, rfl, rfl, rfl, Nat.le_refl 1, Nat.le_refl 2,
    (eagerRun_fair _ _).isRun, .inl rfl⟩,
    (eagerRun_fair _ _).isRun, rfl, rfl, rfl, rfl⟩
  · show (List.replicate 4095 (0 : Byte)).length ≤ 4096
    rw [h]; decide
  · show 4096 < (List.replicate 4095 (0 : Byte)).length + 2
    rw [h]; decide
  · show 4096 - (List.replicate 4095 (0 : Byte)).length ≤ 1
    rw [h]

/-- The host asks for one byte, the engine moves it and is done, and the host reads it. -/
def streamStart : State :=
  { idle legacySeeded with
    agenda := [.host (.write 4 0x04 0x50000001), .engine, .engine, .host (.read 4 0x0C)] }

theorem witness_StreamIsConserved :
    EngineInv 1 streamStart.engine ∧ ∃ t, StreamRun 1 streamStart [0x02] [0x02] t ∧
      streamStart.engine.fifo = [] ∧ streamStart.engine.pend = [] ∧ t.engine.busy = false ∧ t.engine.fifo = [] := by
  refine ⟨legacySeeded_inv _, _, StreamRun.hostTurn (i := .wrCmd 0x50000001) (g := []) (d := [0x02]) rfl rfl rfl
    (StreamRun.engineTurn rfl rfl (StreamRun.engineTurn rfl rfl
      (StreamRun.hostTurn (i := .rdOut) (g := []) (d := []) rfl rfl rfl (StreamRun.refl _)))), rfl, rfl, rfl, rfl⟩

theorem witness_LegacyProduceRunsStepsAndChunks : 0 < 1 ∧ 4 < 5 ∧ legacySeeded.variant.keyLen? = none :=
  ⟨by decide, by decide, rfl⟩

theorem witness_LegacyTableStaysPermutation : IsPermutation legacySeeded.legacy.s := identityTable_isPermutation

/-- The shortest and the longest key, the first and the last pass and entry; and two keys that agree. -/
theorem witness_LegacyKeyScheduleAndPeriodicity :
    (1 ≤ (zeros 1).length ∧ (zeros 1).length ≤ 256) ∧ (1 ≤ (zeros 256).length ∧ (zeros 256).length ≤ 256) ∧
    0 < 256 ∧ 255 < 256 ∧
    [(0xAB : Byte)] ≠ [] ∧ [(0xAB : Byte), 0xAB] ≠ [] ∧
    ∀ i, i < 256 → [(0xAB : Byte)].getD (i % 1) 0 = [(0xAB : Byte), 0xAB].getD (i % 2) 0 := by decide

theorem witness_UpdateSplitsStream :
    (16 = 16 ∧ (zeros 32).length = 16 + 16) ∧ (24 = 24 ∧ (zeros 40).length = 16 + 24) ∧
    (32 = 32 ∧ (zeros 48).length = 16 + 32) := by decide

theorem witness_InstantiateIsOneUpdate :
    (0 < (zeros 1).length ∧ (zeros 1).length ≤ 16 + 16) ∧ (0 < (zeros 48).length ∧ (zeros 48).length ≤ 16 + 32) := by
  decide

theorem witness_GenerateEmitsStream : 16 < 17 ∧ 0 < 1 := by decide

theorem witness_GeneratePrefixAndOverlap : 5 ≤ 20 := by decide

/-- Two engines with one seed and different pasts: different bytes past `SLEN` and different generator arrays. -/
theorem witness_SeedReplacesGenerator :
    let s1 := idle { Engine.reset with slen := 1 }
    let s2 := idle { Engine.reset with slen := 1, seedBuf := Engine.reset.seedBuf.set 1 0xFF, drbg.v := blockOf 9 }
    s1.engine.variant = s2.engine.variant ∧ seedBytes s1.engine = seedBytes s2.engine ∧
    s1.engine.slen = s2.engine.slen ∧ s1.engine.err = .noError ∧ s2.engine.err = .noError ∧
    s1.engine.busy = false ∧ s2.engine.busy = false ∧
    ∃ t1 t2, exec (.seed 0) s1 = .next t1 ∧ exec (.seed 0) s2 = .next t2 ∧ t1.engine.err = .noError :=
  ⟨rfl, by decide, rfl, rfl, rfl, rfl, rfl, _, _, rfl, rfl, rfl⟩

/-- `GET 1` at the depth 1, with an empty read of `OUT` before the byte is there: the host's write and read, the
engine's `PUSH` and `DONE`, and the host's last three reads. -/
theorem witness_HostRunsFollowExpansions :
    ∃ d, HostPath 1 (.start (idle legacySeeded) [.get 1])
      [.host (.write 4 0x04 0x50000001), .host (.read 4 0x0C), .engine, .engine, .host (.read 4 0x0C),
        .host (.read 4 0x08), .host (.read 4 0x08)] d ∧
      d.program = [] ∧ d.failed = false ∧ d.collected = [0x02] ∧
      d.machine.observed = [0x000, 0x102, 0x002, 0x002] := by
  refine ⟨_, .host (o := .access _) rfl rfl (.host (o := .pop) rfl rfl (.engine rfl (.engine rfl
    (.host (o := .pop) rfl rfl (.host (o := .waitIdle) rfl rfl (.host (o := .checkOk) rfl rfl (.refl _))))))),
    rfl, rfl, rfl, rfl⟩

/-- Both loops at the depth 1, in the run that lets the engine move first. -/
theorem witness_HostLoopsEndInFairRuns :
    let e := { busyEngine with pend := [7] }
    (FairRun 1 (eagerRun 1 (hostAt .pop e)) ∧ (hostAt .pop e).failed = false ∧
      (hostAt .pop e).program = .pop :: [] ∧ e.fifo ++ e.pend = 7 :: []) ∧
    (FairRun 1 (eagerRun 1 (hostAt .waitIdle e)) ∧ (hostAt .waitIdle e).failed = false ∧
      (hostAt .waitIdle e).program = .waitIdle :: [] ∧ (e.pend ≠ [] → e.busy = true) ∧
      e.fifo.length + e.pend.length ≤ 1) :=
  ⟨⟨eagerRun_fair _ _, rfl, rfl, rfl⟩, eagerRun_fair _ _, rfl, rfl, fun _ => rfl, Nat.le_refl 1⟩

/-- The largest request through a FIFO of one byte. -/
theorem witness_GetReturnsGeneratedBytes :
    let c := HostState.start (idle legacySeeded) [.get 0xFFFFFF]
    FairRun 1 (eagerRun 1 c) ∧ c.failed = false ∧ EngineInv 1 c.machine.engine ∧ c.machine.engine.err = .noError ∧
    c.machine.engine.busy = false ∧ c.machine.engine.seeded = true ∧
    c.program = HostLine.expand (.get 0xFFFFFF) ++ [] :=
  ⟨eagerRun_fair _ _, rfl, legacySeeded_inv 1, rfl, rfl, rfl, List.flatMap_cons⟩

end Sys2Proof.Tests
end

section
/-! PROOFS. What a step of the machine can do, and the invariants every step keeps (00_scope.md R16, 10_state.md R43,
R46). -/

namespace Sys2Proof.Machine

/-! ### One step -/

/-- The host's turn executes the decoded access (R16, R67). -/
theorem stepAt_host {s : State} {a : BusAction} {rest : List Turn} {i : Instr} (depth : Nat)
    (hs : s.agenda = .host a :: rest) (ha : decodeAction a = .ok i) :
    stepAt depth s = exec i { s with agenda := rest } := by
  simp [stepAt, hs, takeTurn, ha]

/-- The engine's turn is its step, also when the agenda is empty (R16, R258). -/
theorem stepAt_engine {s : State} {rest : List Turn} (depth : Nat)
    (hs : s.agenda = .engine :: rest ∨ (s.agenda = [] ∧ rest = [])) :
    stepAt depth s = .next { s with engine := engineStep depth s.engine, agenda := rest } := by
  rcases hs with hs | ⟨hs, rfl⟩
  · simp [stepAt, hs, takeTurn, State.withEngine]
  · simp [stepAt, hs, takeTurn, State.withEngine]

/-- All that a step with a next state can be: a turn of the engine, or an admitted access of the host. -/
theorem stepAt_cases {depth : Nat} {s t : State} (h : stepAt depth s = .next t) :
    (nextInstr s = none ∧ t.engine = engineStep depth s.engine) ∨
    ∃ i rest, nextInstr s = some i ∧ exec i { s with agenda := rest } = .next t := by
  rcases hs : s.agenda with _ | ⟨_ | _, rest⟩
  case nil =>
    rw [stepAt_engine (rest := []) depth (.inr ⟨hs, rfl⟩)] at h
    cases h
    exact .inl ⟨by simp [nextInstr, hs], rfl⟩
  case cons.engine =>
    rw [stepAt_engine depth (.inl hs)] at h
    cases h
    exact .inl ⟨by simp [nextInstr, hs], rfl⟩
  case cons.host a =>
    rcases ha : decodeAction a with r | i
    · simp [stepAt, hs, takeTurn, ha] at h
    · rw [stepAt_host depth hs ha] at h
      exact .inr ⟨i, rest, by simp [nextInstr, hs, ha, Except.toOption], h⟩

/-- Settles O30: the step's own equation for a host turn. -/
theorem stepRunsDecodedAccess : Obligations.StepRunsDecodedAccess := by
  intro s a rest i hs ha
  exact ⟨stepAt_host _ hs ha, fun depth => stepAt_host depth hs ha⟩

/-- `PUSH` moves a byte when the FIFO has room (R200). -/
theorem engineStep_push {depth : Nat} {e : Engine} {b : Byte} {bs : List Byte} (hp : e.pend = b :: bs)
    (hf : e.fifo.length < depth) : engineStep depth e = { e with fifo := e.fifo ++ [b], pend := bs } := by
  simp [engineStep, pushEnabled, moveByte, hp, hf]

/-- `PUSH` waits at a full FIFO (R200). -/
theorem engineStep_full {depth : Nat} {e : Engine} (hp : e.pend ≠ []) (hf : depth ≤ e.fifo.length) :
    engineStep depth e = e := by
  simp [engineStep, pushEnabled, doneEnabled, hp, Nat.not_lt.mpr hf]

/-- With nothing pending the engine's turn leaves `BUSY` = 0: `DONE`, or no step (R201). -/
theorem engineStep_done {depth : Nat} {e : Engine} (hp : e.pend = []) :
    engineStep depth e = { e with busy := false } := by
  rcases engineStep_cases depth e with ⟨_, _, hp', _⟩ | ⟨_, _, h⟩ | ⟨h, hb, _⟩
  · simp [hp] at hp'
  · exact h
  · rw [h, ← hb hp]

/-- With nothing pending and `BUSY` = 0 the engine has no step (R201, R202). -/
theorem engineStep_idle {depth : Nat} {e : Engine} (hp : e.pend = []) (hb : e.busy = false) :
    engineStep depth e = e := by
  rw [engineStep_done hp, ← hb]

/-- Settles O33: one equation for each of `PUSH`, `DONE`, a full FIFO and an idle engine. -/
theorem engineTurnTakesEnabledStep : Obligations.EngineTurnTakesEnabledStep := by
  refine ⟨fun _ => rfl, fun depth s rest hs => ?_⟩
  rw [stepAt_engine depth hs]
  refine ⟨fun b bs hp hf => ?_, fun hp _ => ?_, fun hp hf => ?_, fun hp hb => ?_⟩
  · rw [engineStep_push hp hf]
  · rw [engineStep_done hp]
  · rw [engineStep_full hp hf]
  · rw [engineStep_idle hp hb]

/-! ### The generators keep what the invariants ask of them -/

/-- The condition of R46 on a legacy generator's table, kept by one step (R126). -/
theorem rc4Step_isPermutation {st : LegacyState} (h : IsPermutation st.s) : IsPermutation (rc4Step st).2.s :=
  tableSwap_isPermutation h _ _

theorem rc4Produce_isPermutation (n : Nat) {st : LegacyState} (h : IsPermutation st.s) :
    IsPermutation (rc4Produce n st).2.s := by
  induction n generalizing st with
  | zero => exact h
  | succ n ih => exact ih (rc4Step_isPermutation h)

theorem rc4Discard_isPermutation (n : Nat) {st : LegacyState} (h : IsPermutation st.s) :
    IsPermutation (rc4Discard n st).s := by
  induction n generalizing st with
  | zero => exact h
  | succ n ih => exact ih (rc4Step_isPermutation h)

/-- Every pass of the key schedule swaps two entries (R121, R126). -/
theorem rc4Schedule_isPermutation (key : List Byte) (is : List Nat) {acc : Byte × Table} (h : IsPermutation acc.2) :
    IsPermutation (is.foldl (rc4ScheduleStep key) acc).2 := by
  induction is generalizing acc with
  | nil => exact h
  | cons i is ih => exact ih (tableSwap_isPermutation h _ _)

theorem rc4Seed_isPermutation (key : List Byte) : IsPermutation (rc4Seed key).s :=
  rc4Schedule_isPermutation key _ identityTable_isPermutation

/-- The key bytes past the first `kl` are 0 (R42, R46 item 8). -/
def UnusedKeyZero (kl : Nat) (d : DrbgState) : Prop := ∀ k, kl ≤ k → (h : k < 32) → d.key[k] = 0

/-- `Update` clears the unused key bytes (R145). -/
theorem drbgUpdate_unusedKeyZero (E : Cipher) (kl : Nat) (pd : List Byte) (d : DrbgState) :
    UnusedKeyZero kl (drbgUpdate E kl pd d) := by
  intro k hk h
  simp only [drbgUpdate, getElem_arrayOf _ k h, List.getD_eq_getElem?_getD]
  rw [List.getElem?_eq_none (by rw [List.length_take]; omega), Option.getD_none]

/-- What R46 asks of the generator arrays of a seeded engine: a legacy table is a permutation, and a counter DRBG's
unused key bytes are 0. -/
structure GeneratorInv (e : Engine) : Prop where
  permutation : e.variant.keyLen? = none → IsPermutation e.legacy.s
  unused_key : ∀ kl, e.variant.keyLen? = some kl → UnusedKeyZero kl e.drbg

theorem EngineInv.generatorInv {depth : Nat} {e : Engine} (h : EngineInv depth e) (hs : e.seeded = true) :
    GeneratorInv e :=
  ⟨fun hv => h.permutation hv hs, fun kl hv => h.unused_key kl hv hs⟩

theorem generatorInv_of_legacy {e : Engine} (hv : e.variant.keyLen? = none) (hp : IsPermutation e.legacy.s) :
    GeneratorInv e :=
  ⟨fun _ => hp, fun kl h => by simp [hv] at h⟩

theorem generatorInv_of_drbg {e : Engine} {kl : Nat} (hv : e.variant.keyLen? = some kl)
    (hk : UnusedKeyZero kl e.drbg) : GeneratorInv e :=
  ⟨fun h => by simp [hv] at h, fun kl' h => by rwa [← Option.some.inj (hv.symm.trans h)]⟩

/-- Seeding establishes the condition on the generator arrays, whatever they held (R121, R124, R147). -/
theorem seedGenerator_generatorInv (e : Engine) : GeneratorInv (seedGenerator e) := by
  unfold seedGenerator
  split
  next hv => exact generatorInv_of_legacy (congrArg Variant.keyLen? hv) (rc4Seed_isPermutation _)
  next hv =>
    exact generatorInv_of_legacy (congrArg Variant.keyLen? hv) (rc4Discard_isPermutation _ (rc4Seed_isPermutation _))
  next hv => exact generatorInv_of_drbg (congrArg Variant.keyLen? hv) (drbgUpdate_unusedKeyZero _ _ _ _)
  next hv => exact generatorInv_of_drbg (congrArg Variant.keyLen? hv) (drbgUpdate_unusedKeyZero _ _ _ _)
  next hv => exact generatorInv_of_drbg (congrArg Variant.keyLen? hv) (drbgUpdate_unusedKeyZero _ _ _ _)

/-- Generating keeps it (R123, R149). -/
theorem generate_generatorInv (n : Nat) {e : Engine} (h : GeneratorInv e) : GeneratorInv (generate n e).2 := by
  unfold generate
  split
  next hv => exact generatorInv_of_legacy hv (rc4Produce_isPermutation n (h.permutation hv))
  next kl hv => exact generatorInv_of_drbg hv (drbgUpdate_unusedKeyZero _ _ _ _)

/-! ### The invariants -/

/-- By item 4 of R46 nothing is pending in an engine that is not busy. -/
theorem EngineInv.pend_of_idle {depth : Nat} {e : Engine} (h : EngineInv depth e) (hb : e.busy = false) :
    e.pend = [] := by
  by_contra hp
  simp [h.pend_busy hp] at hb

theorem reset_inv (depth : Nat) (busy : Bool) : EngineInv depth { Engine.reset with busy := busy } where
  slen_le := by simp
  fifo_le := by simp
  pend_busy := by simp
  pend_seeded := by simp
  pend_lt := by simp
  permutation := by simp
  unused_key := by simp

/-- The recorded error is no part of the invariants. -/
theorem EngineInv.withErr {depth : Nat} {e : Engine} (h : EngineInv depth e) (c : ErrCode) :
    EngineInv depth { e with err := c } :=
  { h with }

theorem raise_inv {depth : Nat} {e : Engine} (c : ErrCode) (h : EngineInv depth e) : EngineInv depth (raise c e) := by
  rw [raise_keeps]
  exact h.withErr _

theorem popFifo_inv {depth : Nat} {e : Engine} (h : EngineInv depth e) : EngineInv depth (popFifo e).2 := by
  rcases popFifo_cases e with ⟨_, hq⟩ | ⟨b, rest, hf, hq⟩ <;> rw [hq]
  · exact h
  · have hlen := h.fifo_le
    rw [hf, List.length_cons] at hlen
    exact { h with fifo_le := Nat.le_of_succ_le hlen }

theorem engineStep_inv {depth : Nat} {e : Engine} (h : EngineInv depth e) : EngineInv depth (engineStep depth e) := by
  rcases engineStep_cases depth e with ⟨b, rest, hp, hf, hq⟩ | ⟨hp, _, hq⟩ | ⟨hq, _⟩ <;> rw [hq]
  · have hne : e.pend ≠ [] := by simp [hp]
    have hlen := h.pend_lt
    rw [hp, List.length_cons] at hlen
    exact { h with
      fifo_le := by simpa using hf
      pend_busy := fun _ => h.pend_busy hne
      pend_seeded := fun _ => h.pend_seeded hne
      pend_lt := Nat.lt_of_succ_lt hlen }
  · exact { h with pend_busy := fun hne => absurd hp hne }
  · exact h

/-- A command that executes keeps the invariants: it starts with nothing pending, and SEED and PRODUCE keep the
condition on the generator arrays. -/
theorem ordinaryEffect_inv {depth : Nat} {i : Instr} {e e' : Engine} (h : EngineInv depth e) (hb : e.busy = false)
    (hx : OrdinaryEffect i e e') : EngineInv depth e' := by
  have hp := h.pend_of_idle hb
  rcases hx with ⟨_, rfl⟩ | ⟨g, _, rfl⟩ | ⟨_, rfl⟩ | ⟨b, _, hs, rfl⟩ | ⟨_, _, rfl⟩ | ⟨n, _, hs, rfl⟩ | ⟨_, rfl⟩
  · exact { h with pend_busy := fun _ => rfl }
  · exact { h with
      fifo_le := Nat.zero_le _
      pend_busy := fun _ => rfl
      pend_seeded := fun hne => absurd hp hne
      permutation := fun _ hf => by simp at hf
      unused_key := fun _ _ hf => by simp at hf }
  · exact { h with slen_le := Nat.zero_le _, pend_busy := fun _ => rfl }
  · have hlen : e.slen ≤ 256 := h.slen_le
    exact { h with
      slen_le := show e.slen + 1 ≤ 256 by omega
      pend_busy := fun _ => rfl }
  · have hg := seedGenerator_generatorInv e
    rw [seedGenerator_keeps] at hg ⊢
    exact {
      slen_le := h.slen_le
      fifo_le := Nat.zero_le _
      pend_busy := fun _ => rfl
      pend_seeded := fun _ => rfl
      pend_lt := by simp
      permutation := fun hv _ => hg.permutation hv
      unused_key := fun kl hv _ => hg.unused_key kl hv }
  · have hg := generate_generatorInv n.toNat (h.generatorInv hs)
    rw [generate_keeps] at hg ⊢
    exact { h with
      pend_busy := fun _ => rfl
      pend_seeded := fun _ => hs
      pend_lt := (generate_length n.toNat e).trans_lt n.isLt
      permutation := fun hv _ => hg.permutation hv
      unused_key := fun kl hv _ => hg.unused_key kl hv }
  · exact { h with fifo_le := Nat.zero_le _, pend_busy := fun _ => rfl }

theorem acceptFields_inv {depth : Nat} {e : Engine} (op : BitVec 4) (a : BitVec 28) (h : EngineInv depth e) :
    EngineInv depth (acceptFields op a e) := by
  rcases acceptFields_effects op a e with ⟨c, hq⟩ | ⟨_, hq⟩ | ⟨_, hq⟩ | ⟨_, hq⟩ | ⟨_, hb, hx⟩
  · rw [hq]; exact raise_inv c h
  · rw [hq]; exact reset_inv depth true
  · rw [hq]; exact h.withErr _
  · rwa [hq]
  · exact ordinaryEffect_inv h hb hx

/-- Every instruction keeps the invariants (R46). -/
theorem exec_inv {depth : Nat} {i : Instr} {s t : State} (h : EngineInv depth s.engine) (hx : exec i s = .next t) :
    EngineInv depth t.engine := by
  rcases exec_effects i s t hx with ⟨op, a, _, rfl⟩ | ⟨_, rfl⟩ | ⟨_, rfl⟩ | ⟨⟨v, rfl⟩, _⟩ | ⟨rfl, _⟩
  · exact acceptFields_inv op a h
  · exact reset_inv depth false
  · exact popFifo_inv h
  · exact h
  · exact h

/-- Every step keeps the invariants (R8, R46). -/
theorem stepAt_inv {depth : Nat} {s t : State} (h : EngineInv depth s.engine) (hx : stepAt depth s = .next t) :
    EngineInv depth t.engine := by
  rcases stepAt_cases hx with ⟨_, hq⟩ | ⟨i, rest, _, hi⟩
  · rw [hq]; exact engineStep_inv h
  · exact exec_inv (s := { s with agenda := rest }) h hi

/-- Settles O35: the engine's turn and every instruction keep the invariants. -/
theorem stepKeepsEngineInvariant : Obligations.StepKeepsEngineInvariant :=
  ⟨fun _ _ h hx => stepAt_inv h hx, fun _ _ _ h hx => stepAt_inv h hx⟩

end Sys2Proof.Machine
end

section
/-! PROOFS. What single instructions do to the host's side, to the variant and to the output queues, and the
conservation of output along runs (00_scope.md R14, 20_memory.md R71, 43_commands_output.md R206 to R211). -/

namespace Sys2Proof.Machine

/-! ### The host's side -/

/-- No instruction is refused and none faults: the engine has no traps (R240). -/
theorem exec_completes (i : Instr) (s : State) : ∃ t, exec i s = .next t := by
  cases i <;> exact ⟨_, rfl⟩

/-- A command, written to CMD or named by its row, is no read (R91, R97). -/
theorem actionOf_ne_read_of_command {i : Instr} {op : BitVec 4} {a : BitVec 28} (h : commandOf i = decodeFields op a)
    (offset : Nat) : actionOf i ≠ .read 4 offset := by
  by_cases hw : ∃ w, i = .wrCmd w
  · obtain ⟨w, rfl⟩ := hw
    rw [show actionOf (.wrCmd w) = .write 4 0x04 w from actionOf_writeBits _ _ (by decide)]
    simp
  · have hi : commandOf i = i := by
      cases i
      case wrCmd w => exact absurd ⟨w, rfl⟩ hw
      all_goals rfl
    rw [← hi, h, actionOf_decodeFields]
    simp

/-- What an instruction does on the host's side: a read returns one value, and nothing else is touched. -/
theorem exec_hostSide {i : Instr} {s t : State} (h : exec i s = .next t) :
    t.agenda = s.agenda ∧
    ((∃ offset, actionOf i = .read 4 offset) ∧ (∃ v, t.observed = s.observed ++ [v]) ∨
      (∀ offset, actionOf i ≠ .read 4 offset) ∧ t.observed = s.observed) := by
  rcases exec_effects i s t h with ⟨op, a, hc, rfl⟩ | ⟨rfl, rfl⟩ | ⟨rfl, rfl⟩ | ⟨⟨v, rfl⟩, _, hr⟩ | ⟨rfl, _, _, hw⟩
  · exact ⟨rfl, .inr ⟨actionOf_ne_read_of_command hc, rfl⟩⟩
  · exact ⟨rfl, .inr ⟨fun _ => nofun, rfl⟩⟩
  · exact ⟨rfl, .inl ⟨⟨0x0C, rfl⟩, _, rfl⟩⟩
  · exact ⟨rfl, .inl ⟨hr, _, rfl⟩⟩
  · exact ⟨rfl, .inr ⟨by simp [hw], rfl⟩⟩

/-- Settles O42: every instruction completes, and `exec_hostSide` says what it leaves the host. -/
theorem hostSideFrame : Obligations.HostSideFrame := by
  intro i s
  obtain ⟨t, ht⟩ := exec_completes i s
  obtain ⟨hagenda, hobs⟩ := exec_hostSide ht
  refine ⟨t, ht, hagenda, ?_, ?_⟩ <;> intro hr <;> rcases hobs with ⟨hread, hv⟩ | ⟨hno, heq⟩
  · exact hv
  · exact absurd hr.choose_spec (hno _)
  · exact absurd hread.choose_spec (hr _)
  · exact heq

/-! ### SELECT and the count registers -/

/-- SELECT by the acceptance steps, for every 3-bit code (R172, R225). -/
theorem exec_select (v : BitVec 3) (r : BitVec 25) (s : State) :
    exec (.select v r) s = .next (s.withEngine (ordinaryCommand (r == 0 && decide (v.toNat ≤ 4)) s.engine
      (selectEffect v s.engine))) := by
  have hx : executeCommand 1 (r ++ v) s.engine = selectEffect ((r ++ v).extractLsb' 0 3) s.engine := rfl
  change Host.Outcome.next (s.withEngine (acceptFields 1 (r ++ v) s.engine)) = _
  rw [acceptFields_ordinary 1 _ _ (by decide), operandLegal_select, hx, low_of_append]

theorem Variant.code_le (g : Variant) : g.code.toNat ≤ 4 := by cases g <;> decide

/-- Settles O17: a variant's code is legal and selects it, a code of 5 to 7 is an illegal operand. -/
theorem selectChoosesVariant : Obligations.SelectChoosesVariant := by
  refine ⟨⟨rfl, rfl, rfl, rfl, rfl⟩, fun g r s => ?_, fun v r s hv => ?_, by decide⟩
  · simp [exec_select, selectEffect, g.code_le]
  · have hlegal : (r == 0 && decide (v.toNat ≤ 4)) = false := by simp; omega
    rw [exec_select, hlegal, ordinaryCommand, if_pos rfl]

/-- A count register returns every count below 2^32 exactly (R35, R36, R37). -/
theorem countWord_toNat {n : Nat} (h : n < 2 ^ 32) : (countWord n).toNat = n := by
  rw [countWord, BitVec.toNat_ofNat, Nat.mod_eq_of_lt h]

/-- Settles O28: the invariants bound the three lengths below 2^32. -/
theorem countReadsAreExact : Obligations.CountReadsAreExact := by
  intro depth s hd h
  have hslen : s.engine.slen ≤ 256 := h.slen_le
  have hpend := h.pend_lt
  exact ⟨⟨_, rfl, countWord_toNat (h.fifo_le.trans_lt hd)⟩, ⟨_, rfl, countWord_toNat (by omega)⟩,
    ⟨_, rfl, countWord_toNat (by omega)⟩⟩

/-! ### Output is conserved -/

/-- An instruction does what the command it performs does (R91, R111). -/
theorem exec_commandOf (i : Instr) (s : State) : exec (commandOf i) s = exec i s := by
  cases i
  case wrCmd w => exact exec_decodeFields _ _ s
  all_goals rfl

/-- The instruction is a PRODUCE `n` that executes against `e` (R190, R225). -/
structure Produces (i : Instr) (e : Engine) (n : BitVec 24) : Prop where
  command : commandOf i = .produce n 0
  noError : e.err = .noError
  idle : e.busy = false
  seeded : e.seeded = true

/-- A PRODUCE that executes puts the generator's next bytes in `PEND` (R190). -/
theorem exec_of_produces {i : Instr} {s : State} {n : BitVec 24} (h : Produces i s.engine n) :
    exec i s = .next (s.withEngine
      { (generate n.toNat s.engine).2 with pend := (generate n.toNat s.engine).1, busy := true }) := by
  have hx : executeCommand 5 (0#4 ++ n) s.engine = produceEffect ((0#4 ++ n).extractLsb' 0 24).toNat s.engine := rfl
  rw [← exec_commandOf, h.command]
  change Host.Outcome.next (s.withEngine (acceptFields 5 (0#4 ++ n) s.engine)) = _
  rw [acceptFields_ordinary 5 _ _ (by decide), operandLegal_produce, hx, low_of_append]
  simp [ordinaryCommand, produceEffect, h.noError, h.idle, h.seeded]

/-- An instruction generates bytes only as a PRODUCE that executes. -/
theorem generatedBy_cases (i : Instr) (e : Engine) :
    (∃ n, Produces i e n ∧ generatedBy i e = (generate n.toNat e).1) ∨
    (generatedBy i e = [] ∧ ∀ n, ¬ Produces i e n) := by
  by_cases h : ∃ n, Produces i e n
  · obtain ⟨n, hn⟩ := h
    refine .inl ⟨n, hn, ?_⟩
    simp [generatedBy, hn.command, hn.noError, hn.idle, hn.seeded]
  · refine .inr ⟨?_, fun n hn => h ⟨n, hn⟩⟩
    unfold generatedBy
    split
    next n r hc =>
      rw [if_neg]
      rintro ⟨rfl, he, hb, hs⟩
      exact h ⟨n, hc, he, hb, hs⟩
    next => rfl

/-- An accepted word that drops no output and is no PRODUCE that executes leaves both queues (R190, R285). -/
theorem acceptFields_queues {i : Instr} {op : BitVec 4} {a : BitVec 28} {e : Engine}
    (hc : commandOf i = decodeFields op a) (hd : dropsOutput i = false) (hn : ∀ n, ¬ Produces i e n) :
    (acceptFields op a e).fifo = e.fifo ∧ (acceptFields op a e).pend = e.pend := by
  rcases acceptFields_effects op a e with ⟨c, hq⟩ | ⟨hi, _⟩ | ⟨_, hq⟩ | ⟨_, hq⟩ | ⟨he, hb, hx⟩
  · rw [hq, raise_keeps]; exact ⟨rfl, rfl⟩
  · simp [dropsOutput, hc, hi] at hd
  · rw [hq]; exact ⟨rfl, rfl⟩
  · rw [hq]; exact ⟨rfl, rfl⟩
  · rcases hx with ⟨_, hq⟩ | ⟨g, hi, _⟩ | ⟨_, hq⟩ | ⟨b, _, _, hq⟩ | ⟨hi, _, _⟩ | ⟨n, hi, hs, _⟩ | ⟨hi, _⟩
    · rw [hq]; exact ⟨rfl, rfl⟩
    · simp [dropsOutput, hc, hi] at hd
    · rw [hq]; exact ⟨rfl, rfl⟩
    · rw [hq]; exact ⟨rfl, rfl⟩
    · simp [dropsOutput, hc, hi] at hd
    · exact absurd ⟨hc.trans hi, he, hb, hs⟩ (hn n)
    · simp [dropsOutput, hc, hi] at hd

theorem deliveredBy_of_ne_rdOut {i : Instr} (e : Engine) (h : i ≠ .rdOut) : deliveredBy i e = [] := by
  unfold deliveredBy
  split
  · exact absurd rfl h
  · rfl

/-- The bytes on their way to the host, oldest first (R43, R44). -/
def Engine.queue (e : Engine) : List Byte := e.fifo ++ e.pend

/-- What an instruction delivers, then what is on its way, is what was on its way and what it generates. -/
theorem exec_conserves {i : Instr} {s t : State} (hx : exec i s = .next t) (hd : dropsOutput i = false)
    (hp : s.engine.busy = false → s.engine.pend = []) :
    deliveredBy i s.engine ++ t.engine.queue = s.engine.queue ++ generatedBy i s.engine := by
  rcases generatedBy_cases i s.engine with ⟨n, hn, hg⟩ | ⟨hg, hn⟩
  · have hi : i ≠ .rdOut := by
      rintro rfl
      exact absurd hn.command (by simp [commandOf])
    rw [exec_of_produces hn] at hx
    cases hx
    rw [deliveredBy_of_ne_rdOut _ hi, hg, generate_keeps]
    simp [Engine.queue, hp hn.idle]
  · rw [hg, List.append_nil]
    rcases exec_effects i s t hx with ⟨op, a, hc, rfl⟩ | ⟨rfl, _⟩ | ⟨rfl, rfl⟩ | ⟨⟨v, rfl⟩, hi, _⟩ | ⟨rfl, _, _, hw⟩
    · have hi : i ≠ .rdOut := by
        rintro rfl
        exact actionOf_ne_read_of_command hc 0x0C rfl
      obtain ⟨hf, hpd⟩ := acceptFields_queues hc hd hn
      simp [deliveredBy_of_ne_rdOut _ hi, Engine.queue, hf, hpd]
    · simp [dropsOutput, commandOf] at hd
    · rcases popFifo_cases s.engine with ⟨hf, hq⟩ | ⟨b, rest, hf, hq⟩ <;> simp [deliveredBy, Engine.queue, hf, hq]
    · simp [deliveredBy_of_ne_rdOut _ hi]
    · have hi : i ≠ .rdOut := by
        rintro rfl
        cases hw
      simp [deliveredBy_of_ne_rdOut _ hi]

/-- The engine's turn leaves the bytes on their way, in order (R200, R201). -/
theorem engineStep_queue (depth : Nat) (e : Engine) : (engineStep depth e).queue = e.queue := by
  rcases engineStep_cases depth e with ⟨b, rest, hp, _, hq⟩ | ⟨_, _, hq⟩ | ⟨hq, _⟩ <;> rw [hq]
  · simp [Engine.queue, hp]
  · rfl

/-- Conservation along a run, with the invariants that carry it. -/
theorem StreamRun.conserves {depth : Nat} {s t : State} {g d : List Byte} (h : StreamRun depth s g d t)
    (hinv : EngineInv depth s.engine) :
    d ++ t.engine.queue = s.engine.queue ++ g ∧ EngineInv depth t.engine := by
  induction h with
  | refl s => exact ⟨by simp, hinv⟩
  | @engineTurn s t u g d hn hs _ ih =>
    rcases stepAt_cases hs with ⟨_, hq⟩ | ⟨i, _, hi, _⟩
    · rw [← engineStep_queue depth s.engine, ← hq]
      exact ih (stepAt_inv hinv hs)
    · simp [hn] at hi
  | @hostTurn s t u g d i hi hd hs _ ih =>
    rcases stepAt_cases hs with ⟨hn, _⟩ | ⟨j, rest, hj, hx⟩
    · simp [hn] at hi
    · obtain rfl : i = j := Option.some.inj (hi.symm.trans hj)
      have hstep := exec_conserves (s := { s with agenda := rest }) hx hd hinv.pend_of_idle
      obtain ⟨hrun, hu⟩ := ih (stepAt_inv hinv hs)
      refine ⟨?_, hu⟩
      calc (deliveredBy i s.engine ++ d) ++ u.engine.queue
          = (deliveredBy i s.engine ++ t.engine.queue) ++ g := by simp [hrun]
        _ = s.engine.queue ++ (generatedBy i s.engine ++ g) := by rw [hstep, List.append_assoc]

/-- Settles O45, by conservation along the run; an engine that is not busy has nothing pending. -/
theorem streamIsConserved : Obligations.StreamIsConserved := by
  intro depth s t g d hinv hrun
  obtain ⟨hq, ht⟩ := hrun.conserves hinv
  simp only [Engine.queue, ← List.append_assoc] at hq
  refine ⟨hq, fun hf hp => ?_⟩
  rw [hf, hp, List.nil_append, List.nil_append] at hq
  exact ⟨⟨_, (List.append_assoc ..).symm.trans hq⟩,
    fun hb htf => by rw [← hq, htf, ht.pend_of_idle hb, List.append_nil, List.append_nil]⟩

end Sys2Proof.Machine
end

section
/-! PROOFS. The engine running alone: it drains what fits the FIFO, it stalls on what does not, and runs of a host
program that end or never end (43_commands_output.md R200, R201; 00_scope.md R258). -/

namespace Sys2Proof.Machine

/-! ### Turns of the engine alone -/

/-- The engine with every pending byte in the FIFO and the command complete (R200, R201). -/
def Engine.drained (e : Engine) : Engine := { e with busy := false, fifo := e.fifo ++ e.pend, pend := [] }

theorem engineRun_succ (depth k : Nat) (e : Engine) :
    engineRun depth (k + 1) e = engineStep depth (engineRun depth k e) := by
  induction k generalizing e with
  | zero => rfl
  | succ k ih => exact ih (engineStep depth e)

/-- An engine with nothing to do rests (R202). -/
theorem engineRun_idle {e : Engine} (depth n : Nat) (hp : e.pend = []) (hb : e.busy = false) :
    engineRun depth n e = e := by
  induction n with
  | zero => rfl
  | succ n ih => rw [engineRun, engineStep_idle hp hb, ih]

/-- When everything fits, one turn for each pending byte and one more drain the engine, and it then rests. -/
theorem engineRun_drains {depth n : Nat} {e : Engine} (hb : e.pend ≠ [] → e.busy = true)
    (hfit : e.fifo.length + e.pend.length ≤ depth) (hn : e.pend.length + 1 ≤ n) : engineRun depth n e = e.drained := by
  induction n generalizing e with
  | zero => omega
  | succ n ih =>
    rcases hp : e.pend with _ | ⟨b, bs⟩
    · rw [engineRun, engineStep_done hp, engineRun_idle (e := { e with busy := false }) depth n hp rfl]
      simp [Engine.drained, hp]
    · rw [hp, List.length_cons] at hfit hn
      have hmoved := ih (e := { e with fifo := e.fifo ++ [b], pend := bs }) (fun _ => hb (by simp [hp]))
        (by simp only [List.length_append, List.length_singleton]; omega) (Nat.le_of_succ_le_succ hn)
      rw [engineRun, engineStep_push hp (by omega), hmoved]
      simp [Engine.drained, hp]

/-- More is on its way than the FIFO can hold, so the command in flight cannot complete (R200, R284). -/
structure Engine.Stalled (depth : Nat) (e : Engine) : Prop where
  busy : e.busy = true
  fifo_le : e.fifo.length ≤ depth
  overflows : depth < e.fifo.length + e.pend.length

/-- The engine with `m` bytes of its queues in the FIFO and the others pending. -/
def Engine.splitAt (m : Nat) (e : Engine) : Engine := { e with fifo := e.queue.take m, pend := e.queue.drop m }

theorem Engine.splitAt_self (e : Engine) : e.splitAt e.fifo.length = e := by
  simp [Engine.splitAt, Engine.queue]

theorem Engine.splitAt_splitAt (m m' : Nat) (e : Engine) : (e.splitAt m).splitAt m' = e.splitAt m' := by
  simp [Engine.splitAt, Engine.queue]

theorem Engine.splitAt_stalled {depth m : Nat} {e : Engine} (h : e.Stalled depth) (hm : m ≤ depth) :
    (e.splitAt m).Stalled depth := by
  obtain ⟨hb, hf, ho⟩ := h
  refine ⟨hb, ?_, ?_⟩ <;>
    simp only [Engine.splitAt, Engine.queue, List.length_take, List.length_drop, List.length_append] <;> omega

/-- The turn of a stalled engine moves one byte, up to a full FIFO. -/
theorem Engine.Stalled.engineStep_eq {depth : Nat} {e : Engine} (h : e.Stalled depth) :
    engineStep depth e = e.splitAt (min (e.fifo.length + 1) depth) := by
  obtain ⟨hb, hf, ho⟩ := h
  rcases hp : e.pend with _ | ⟨b, bs⟩
  · simp only [hp, List.length_nil] at ho; omega
  · rcases Nat.lt_or_eq_of_le hf with hlt | heq
    · rw [engineStep_push hp hlt, Nat.min_eq_left hlt]
      simp [Engine.splitAt, Engine.queue, hp, List.take_append, List.drop_append]
    · rw [engineStep_full (by simp [hp]) heq.ge, Nat.min_eq_right (by omega), ← heq, Engine.splitAt_self]

/-- A stalled engine after `k` turns alone. -/
theorem Engine.Stalled.engineRun_eq {depth : Nat} {e : Engine} (h : e.Stalled depth) (k : Nat) :
    engineRun depth k e = e.splitAt (min (e.fifo.length + k) depth) := by
  induction k with
  | zero => rw [Nat.add_zero, Nat.min_eq_left h.fifo_le, Engine.splitAt_self]; rfl
  | succ k ih =>
    have hs := Engine.splitAt_stalled h (Nat.min_le_right (e.fifo.length + k) depth)
    have hlen : (e.splitAt (min (e.fifo.length + k) depth)).fifo.length = min (e.fifo.length + k) depth := by
      have := h.overflows
      simp only [Engine.splitAt, Engine.queue, List.length_take, List.length_append]; omega
    rw [engineRun_succ, ih, hs.engineStep_eq, Engine.splitAt_splitAt, hlen]
    congr 1; omega

theorem Engine.Stalled.pend_ne_nil {depth : Nat} {e : Engine} (h : e.Stalled depth) : e.pend ≠ [] := by
  intro hp
  have hf := h.fifo_le
  have ho := h.overflows
  simp only [hp, List.length_nil] at ho
  omega

/-- Turns of the engine alone never end a stall. -/
theorem Engine.Stalled.engineRun_stalled {depth : Nat} {e : Engine} (h : e.Stalled depth) (k : Nat) :
    (engineRun depth k e).Stalled depth := by
  rw [h.engineRun_eq]
  exact Engine.splitAt_stalled h (Nat.min_le_right ..)

/-! ### Runs whose host has no further access -/

/-- The host state with another engine. -/
def HostState.withEngine (c : HostState) (e : Engine) : HostState := { c with machine := c.machine.withEngine e }

@[simp] theorem HostState.withEngine_engine (c : HostState) (e : Engine) : (c.withEngine e).machine.engine = e := rfl

/-- A turn of the engine in a run is one of its steps, `PUSH` or `DONE` (R200, R201). -/
theorem engineTurn_some {depth : Nat} {c d : HostState} (h : engineTurn depth c = some d) :
    d = c.withEngine (engineStep depth c.machine.engine) := by
  rw [engineTurn_eq] at h
  split at h
  · exact (Option.some.inj h).symm
  · cases h

/-- Where the engine has no turn in a run, neither step is enabled and its step passes. -/
theorem engineStep_of_engineTurn_none {depth : Nat} {c : HostState} (h : engineTurn depth c = none) :
    engineStep depth c.machine.engine = c.machine.engine := by
  rw [engineTurn_eq] at h
  split at h
  · cases h
  next hn =>
    rw [Bool.or_eq_true, not_or, Bool.not_eq_true, Bool.not_eq_true] at hn
    simp [engineStep, hn]

theorem hostTurn_of_noFurtherAccess {depth : Nat} {c : HostState} (h : c.NoFurtherAccess) :
    hostTurn depth c = none := by
  rcases h with hp | hf
  · cases hf : c.failed <;> simp [hostTurn, hf, hp]
  · simp [hostTurn, hf]

/-- A run whose host has no further access is the engine running alone. -/
theorem IsRun.engineRun_eq {depth : Nat} {run : Nat → HostState} {k : Nat} (hr : IsRun depth run)
    (hn : (run k).NoFurtherAccess) (m : Nat) :
    run (k + m) = (run k).withEngine (engineRun depth m (run k).machine.engine) := by
  induction m with
  | zero => rfl
  | succ m ih =>
    have hstep : run (k + m + 1) = (run (k + m)).withEngine (engineStep depth (run (k + m)).machine.engine) := by
      have hno : (run (k + m)).NoFurtherAccess := by rw [ih]; exact hn
      rcases hr (k + m) with h | h | ⟨_, h, heq⟩
      · rw [hostTurn_of_noFurtherAccess hno] at h; cases h
      · exact engineTurn_some h
      · rw [heq, engineStep_of_engineTurn_none h]; rfl
    rw [← Nat.add_assoc, hstep, ih, HostState.withEngine_engine, ← engineRun_succ]
    rfl

/-- Settles O43: the engine drains what fits, and a run without further access is the engine running alone. -/
theorem engineDrainsWhatFits : Obligations.EngineDrainsWhatFits := by
  refine ⟨fun depth e hb hfit => engineRun_drains (fun _ => hb) hfit (Nat.le_refl _), ?_⟩
  intro depth run k hr hno e hb hfit n hn
  have hrun : run n = (run k).withEngine e.drained := by
    rw [show n = k + (n - k) by omega, hr.engineRun_eq hno, engineRun_drains hb hfit (by omega)]
  exact ⟨by rw [hrun]; exact ⟨hno, rfl⟩, hrun⟩

/-! ### Runs that never end -/

/-- The engine's turns never set `BUSY` (R202). -/
theorem engineStep_busy_false (depth : Nat) {e : Engine} (h : e.busy = false) : (engineStep depth e).busy = false := by
  rcases engineStep_cases depth e with ⟨_, _, _, _, hq⟩ | ⟨_, _, hq⟩ | ⟨hq, _⟩ <;> rw [hq]
  · exact h
  · exact h

theorem engineRun_busy_false (depth k : Nat) {e : Engine} (h : e.busy = false) :
    (engineRun depth k e).busy = false := by
  induction k with
  | zero => exact h
  | succ k ih => rw [engineRun_succ]; exact engineStep_busy_false depth ih

/-- A run that has ended has ended for ever (R258). -/
theorem IsRun.ended_mono {depth : Nat} {run : Nat → HostState} (hr : IsRun depth run) {n m : Nat} (hnm : n ≤ m)
    (h : (run n).Ended) : (run m).Ended := by
  obtain ⟨hno, hq⟩ := h
  rw [show m = n + (m - n) by omega, hr.engineRun_eq hno]
  exact ⟨hno, engineRun_busy_false depth _ hq⟩

/-- A run that has not ended at all points from `k` on never ends. -/
theorem IsRun.never_ends {depth : Nat} {run : Nat → HostState} {k : Nat} (hr : IsRun depth run)
    (h : ∀ n, k ≤ n → ¬ (run n).Ended) (n : Nat) : ¬ (run n).Ended :=
  fun hend => h _ (Nat.le_max_left k n) (hr.ended_mono (Nat.le_max_right k n) hend)

/-- What every turn of either agent keeps, the whole run keeps. -/
theorem IsRun.invariant {depth : Nat} {run : Nat → HostState} {k : Nat} (hr : IsRun depth run) {P : HostState → Prop}
    (host : ∀ {c d}, P c → hostTurn depth c = some d → P d)
    (engine : ∀ {c d}, P c → engineTurn depth c = some d → P d) (h : P (run k)) (n : Nat) (hn : k ≤ n) :
    P (run n) := by
  induction n, hn using Nat.le_induction with
  | base => exact h
  | succ n _ ih =>
    rcases hr n with hx | hx | ⟨_, _, hx⟩
    · exact host ih hx
    · exact engine ih hx
    · rwa [hx]

/-- A host that still has operations to perform and has not failed has further access. -/
theorem not_ended_of_program {c : HostState} {o : HostOp} {rest : List HostOp} (hf : c.failed = false)
    (hp : c.program = o :: rest) : ¬ c.Ended := by
  rintro ⟨hno | hno, _⟩
  · simp [hp] at hno
  · simp [hf] at hno

/-- A host that stays at an operation and does not fail hangs there: its run never ends (R258, R284). -/
theorem IsRun.hangs {depth : Nat} {run : Nat → HostState} {k : Nat} {o : HostOp} {rest : List HostOp}
    (hr : IsRun depth run) (hf : ∀ n, k ≤ n → (run n).failed = false)
    (hp : ∀ n, k ≤ n → (run n).program = o :: rest) :
    (∀ n, k ≤ n → (run n).program = o :: rest) ∧ ∀ n, ¬ (run n).Ended :=
  ⟨hp, hr.never_ends fun n hn => not_ended_of_program (hf n hn) (hp n hn)⟩

/-- A host that waits on a stalled engine, in WAIT_IDLE (R284). -/
structure WaitsOnStall (depth : Nat) (rest : List HostOp) (c : HostState) : Prop where
  running : c.failed = false
  program : c.program = .waitIdle :: rest
  stalled : c.machine.engine.Stalled depth

/-- Every read of STATUS finds `BUSY` = 1, and the engine's turns do not end the stall. -/
theorem IsRun.waitsOnStall {depth : Nat} {run : Nat → HostState} {k : Nat} {rest : List HostOp} (hr : IsRun depth run)
    (h : WaitsOnStall depth rest (run k)) (n : Nat) (hn : k ≤ n) : WaitsOnStall depth rest (run n) := by
  refine hr.invariant (P := WaitsOnStall depth rest) ?_ ?_ h n hn
  · rintro c d ⟨hf, hp, hs⟩ hd
    rw [hostTurn_waitIdle hf hp] at hd
    cases hd
    exact ⟨hf, by simp [hs.busy], hs⟩
  · rintro c d ⟨hf, hp, hs⟩ hd
    rw [engineTurn_some hd]
    exact ⟨hf, hp, hs.engineRun_stalled 1⟩

/-- A host that waits for a byte that never comes, in POP: no byte is in the FIFO or pending. -/
structure PopsNothing (rest : List HostOp) (c : HostState) : Prop where
  running : c.failed = false
  program : c.program = .pop :: rest
  fifo : c.machine.engine.fifo = []
  pend : c.machine.engine.pend = []

/-- Every read of OUT finds none, and `DONE` is the engine's only step (R201, R203). -/
theorem IsRun.popsNothing {depth : Nat} {run : Nat → HostState} {k : Nat} {rest : List HostOp} (hr : IsRun depth run)
    (h : PopsNothing rest (run k)) (n : Nat) (hn : k ≤ n) : PopsNothing rest (run n) := by
  refine hr.invariant (P := PopsNothing rest) ?_ ?_ h n hn
  · rintro c d ⟨hf, hp, hfifo, hpend⟩ hd
    rw [hostTurn_pop_empty hf hp hfifo] at hd
    cases hd
    exact ⟨hf, hp, hfifo, hpend⟩
  · rintro c d ⟨hf, hp, hfifo, hpend⟩ hd
    rw [engineTurn_some hd, engineStep_done hpend]
    exact ⟨hf, hp, hfifo, hpend⟩

/-- Settles O44: a stalled engine is the same queues split at the depth, and each kind of hanging host is kept by every
turn of the run. -/
theorem fullFifoStallsEngine : Obligations.FullFifoStallsEngine := by
  refine ⟨fun depth e k hb hf ho => ?_, fun depth run k rest hr hrun => ⟨fun hp hb hf ho => ?_, fun hp hf hpd => ?_⟩,
    fun depth run k hr hno hb hf ho => ?_⟩
  · have h : e.Stalled depth := ⟨hb, hf, ho⟩
    have hk := h.engineRun_stalled k
    refine ⟨hk.busy, hk.pend_ne_nil, fun hle => ?_⟩
    rw [h.engineRun_eq, Nat.min_eq_right (by omega)]
    rfl
  · have h := hr.waitsOnStall ⟨hrun, hp, hb, hf, ho⟩
    exact hr.hangs (fun n hn => (h n hn).running) fun n hn => (h n hn).program
  · have h := hr.popsNothing ⟨hrun, hp, hf, hpd⟩
    exact hr.hangs (fun n hn => (h n hn).running) fun n hn => (h n hn).program
  · refine hr.never_ends (k := k) fun n hn hend => ?_
    have hstalled := Engine.Stalled.engineRun_stalled ⟨hb, hf, ho⟩ (n - k)
    have hrun := hr.engineRun_eq hno (n - k)
    rw [Nat.add_sub_cancel' hn] at hrun
    have hidle := hend.2
    rw [Quiescent, hrun, HostState.withEngine_engine, hstalled.busy] at hidle
    cases hidle

end Sys2Proof.Machine
end

section
/-! PROOFS. A host program's run is the machine's run on the turns taken, and its accesses are an expansion of its lines
(30_encoding.md R113, R114; 00_scope.md R258). -/

namespace Sys2Proof.Machine

/-! ### Expansions, one access at a time -/

/-- An access after which the operation repeats leaves the operation to perform (R113). -/
theorem takeOps_again {o : HostOp} {v : Option Word} (os : List HostOp) (ts : List Access) (h : o.judge v = .again) :
    takeOps (o :: os) ((o.nextAccess, v) :: ts) = takeOps (o :: os) ts := by
  simp only [takeOps, HostOp.take, if_pos, h]

/-- An access that completes the operation leaves the operations after it (R113). -/
theorem takeOps_done {o : HostOp} {v : Option Word} {bytes : List Byte} (os : List HostOp) (ts : List Access)
    (h : o.judge v = .done bytes) :
    takeOps (o :: os) ((o.nextAccess, v) :: ts) = (takeOps os ts).map fun r => (bytes ++ r.1, r.2) := by
  simp only [takeOps, HostOp.take, if_pos, h]

theorem takeOps_append (os ps : List HostOp) (ts : List Access) :
    takeOps (os ++ ps) ts = (takeOps os ts).bind fun r => (takeOps ps r.2).map fun q => (r.1 ++ q.1, q.2) := by
  induction os generalizing ts with
  | nil => simp [takeOps]
  | cons o os ih =>
    rw [List.cons_append, takeOps, takeOps]
    rcases o.take ts with _ | ⟨bytes, rest⟩
    · rfl
    · simp only [ih]
      rcases takeOps os rest with _ | ⟨bs, ts'⟩
      · rfl
      · simp [Function.comp_def]

/-- A program's lines are performed in order, and all accesses are theirs (R110). -/
theorem runLines_of_takeOps {lines : List HostLine} {ts : List Access} {bs : List Byte}
    (h : takeOps (lines.flatMap HostLine.expand) ts = some (bs, [])) : runLines lines ts = some bs := by
  induction lines generalizing ts bs with
  | nil =>
    obtain ⟨rfl, rfl⟩ : [] = bs ∧ ts = [] := by simpa [takeOps] using h
    rfl
  | cons l ls ih =>
    rw [List.flatMap_cons, takeOps_append, Option.bind_eq_some_iff] at h
    obtain ⟨⟨hd, rest⟩, hl, h⟩ := h
    obtain ⟨⟨more, left⟩, hls, h⟩ := Option.map_eq_some_iff.mp h
    obtain ⟨rfl, rfl⟩ : hd ++ more = bs ∧ left = [] := by simpa using h
    have hl' : l.take ts = some (hd, rest) := hl
    have hcons : runLines (l :: ls) ts = (runLines ls rest).map fun more => hd ++ more := by
      cases ts <;> simp only [runLines, hl']
    rw [hcons, ih hls, Option.map_some]

/-! ### READ -/

/-- The host's read of `OUT` that returned what a pop returns (R203). -/
def popAccess (x : Option Byte) : Access := (.read 4 0x0C, some (outWord x))

theorem transcript_pops (xs : List (Option Byte)) :
    transcript (List.replicate xs.length (.read 4 0x0C)) (xs.map outWord) = xs.map popAccess := by
  induction xs with
  | nil => rfl
  | cons x xs ih => simp only [List.length_cons, List.replicate_succ, List.map_cons, transcript, ih, popAccess]

theorem judge_pop_none : HostOp.pop.judge (some (outWord none)) = .again := by decide

theorem judge_pop_some (b : Byte) : HostOp.pop.judge (some (outWord (some b))) = .done [b] := by
  simp [HostOp.judge, outWord_valid, outWord_data]

/-- As many POPs as there are bytes collect them in order; each repeats over the empty reads before its byte (R113). -/
theorem takeOps_pops (xs : List (Option Byte)) (last : Byte) :
    takeOps (List.replicate ((xs ++ [some last]).filterMap id).length .pop) ((xs ++ [some last]).map popAccess)
      = some ((xs ++ [some last]).filterMap id, []) := by
  induction xs with
  | nil => exact takeOps_done [] [] (judge_pop_some last)
  | cons x xs ih =>
    rcases x with _ | b
    · have hlen : ((xs ++ [some last]).filterMap id).length = (xs.filterMap id).length + 1 := by simp
      have hskip := takeOps_again (List.replicate (xs.filterMap id).length .pop) ((xs ++ [some last]).map popAccess)
        judge_pop_none
      rw [← List.replicate_succ, ← hlen, ih] at hskip
      exact hskip
    · have htake := takeOps_done (List.replicate ((xs ++ [some last]).filterMap id).length .pop)
        ((xs ++ [some last]).map popAccess) (judge_pop_some b)
      rw [ih] at htake
      exact htake

/-! ### The machine's steps on the turns taken -/

/-- No instruction looks at the agenda (notes/assumptions/1.md). -/
theorem exec_withAgenda {i : Instr} {s t : State} (agenda : List Turn) (h : exec i s = .next t) :
    exec i { s with agenda := agenda } = .next { t with agenda := agenda } := by
  cases i <;> (cases h; rfl)

/-- What the host's turn is: a decoded access of the current operation, and the verdict on it. -/
theorem hostTurn_cases {depth : Nat} {c d : HostState} {o : HostOp} {rest : List HostOp} (hp : c.program = o :: rest)
    (h : hostTurn depth c = some d) :
    c.failed = false ∧
      ∃ i t, decodeAction o.nextAccess = .ok i ∧ exec i c.machine = .next t ∧ d = c.judged o rest t := by
  rcases hf : c.failed
  case true => simp [hostTurn, hf] at h
  rcases ha : decodeAction o.nextAccess with r | i
  · simp [hostTurn, hf, hp, stepAt, takeTurn, State.withTurn, ha] at h
  · obtain ⟨t, ht⟩ := exec_completes i c.machine
    have hs : stepAt depth (c.machine.withTurn (.host o.nextAccess)) = .next t :=
      (stepAt_host depth rfl ha).trans ht
    simp only [hostTurn, hf, hp, hs, Option.some.injEq] at h
    exact ⟨rfl, i, t, rfl, ht, h.symm⟩

theorem HostState.judged_machine (c : HostState) (o : HostOp) (rest : List HostOp) (t : State) :
    (c.judged o rest t).machine = t := by
  unfold HostState.judged
  split <;> rfl

/-- A part of a run is the machine's own steps, with the turns taken on the agenda (R16, R114). -/
theorem HostPath.stepsAt_eq {depth : Nat} {c d : HostState} {turns : List Turn} (h : HostPath depth c turns d)
    (later : List Turn) :
    stepsAt depth turns.length { c.machine with agenda := turns ++ later } =
      .next { d.machine with agenda := later } := by
  induction h with
  | refl c => rfl
  | @host c d e o rest turns hp ht _ ih =>
    obtain ⟨_, i, t, ha, hx, rfl⟩ := hostTurn_cases hp ht
    rw [HostState.judged_machine] at ih
    rw [List.length_cons, stepsAt, stepAt_host depth (List.cons_append ..) ha]
    simp only [exec_withAgenda (turns ++ later) hx]
    exact ih
  | @engine c d e turns ht _ ih =>
    rw [engineTurn_some ht] at ih
    rw [List.length_cons, stepsAt, stepAt_engine depth (.inl (List.cons_append ..))]
    exact ih

/-! ### The host's accesses -/

/-- The decoder undoes `actionOf`: an instruction's host action is the access it was decoded from (R66, R97). -/
theorem actionOf_of_decodeAction {a : BusAction} {i : Instr} (h : decodeAction a = .ok i) : actionOf i = a := by
  rcases a with ⟨width, offset⟩ | ⟨width, offset, v⟩ | _
  case reset => cases h; rfl
  case read =>
    by_cases hw : width = 4
    · subst hw
      change decodeRead offset = .ok i at h
      unfold decodeRead at h
      split at h <;> cases h <;> rfl
    · simp [decodeAction, hw] at h
  case write =>
    by_cases hw : width = 4
    · subst hw
      change decodeWrite offset v = .ok i at h
      unfold decodeWrite at h
      split at h <;> cases h <;> exact actionOf_writeBits _ v (by decide)
    · simp [decodeAction, hw] at h

/-- An access appends its returned value, if it is a read, to what the host observed, and the transcript pairs the two
(R258). -/
theorem access_observed {a : BusAction} {i : Instr} {s t : State} (ha : decodeAction a = .ok i)
    (hx : exec i s = .next t) :
    ∃ vs, t.observed = s.observed ++ vs ∧
      ∀ rest later, transcript (a :: rest) (vs ++ later) = (a, returnedValue s t) :: transcript rest later := by
  obtain ⟨_, hobs⟩ := exec_hostSide hx
  rw [actionOf_of_decodeAction ha] at hobs
  rcases hobs with ⟨⟨offset, rfl⟩, v, hv⟩ | ⟨hno, heq⟩
  · exact ⟨[v], hv, fun rest later => by simp [transcript, returnedValue, hv]⟩
  · refine ⟨[], by simp [heq], fun rest later => ?_⟩
    rcases a with ⟨width, offset⟩ | _ | _
    case read =>
      have hw : width = 4 := by
        by_contra hw
        simp [decodeAction, hw] at ha
      exact absurd (by rw [hw]) (hno offset)
    all_goals simp [transcript, returnedValue, heq]

/-- A program that has failed stays failed (R113). -/
theorem HostPath.failed_of_failed {depth : Nat} {c d : HostState} {turns : List Turn} (h : HostPath depth c turns d)
    (hf : c.failed = true) : d.failed = true := by
  induction h with
  | refl c => exact hf
  | host hp ht _ _ => exact absurd ((hostTurn_cases hp ht).1.symm.trans hf) (by decide)
  | engine ht _ ih => rw [engineTurn_some ht] at ih; exact ih hf

/-- The accesses of a host that comes to the end of its program, with the values they returned, perform its operations
in order and collect the bytes it collected (R113, R114). -/
theorem HostPath.takeOps_eq {depth : Nat} {c d : HostState} {turns : List Turn} (h : HostPath depth c turns d)
    (hend : d.program = []) (hf : d.failed = false) :
    ∃ vs bytes, d.machine.observed = c.machine.observed ++ vs ∧ d.collected = c.collected ++ bytes ∧
      takeOps c.program (transcript (hostActions turns) vs) = some (bytes, []) := by
  induction h with
  | refl c => exact ⟨[], [], by simp, by simp, by rw [hend]; rfl⟩
  | @engine c d e turns ht _ ih =>
    obtain ⟨vs, bytes, hv, hb, htake⟩ := ih hend hf
    rw [engineTurn_some ht] at hv hb htake
    exact ⟨vs, bytes, hv, hb, htake⟩
  | @host c d e o rest turns hp ht hpath ih =>
    obtain ⟨vs, bytes, hv, hb, htake⟩ := ih hend hf
    obtain ⟨_, i, t, ha, hx, rfl⟩ := hostTurn_cases hp ht
    obtain ⟨us, hu, htrans⟩ := access_observed ha hx
    rw [HostState.judged_machine, hu, List.append_assoc] at hv
    have hacts : hostActions (.host o.nextAccess :: turns) = o.nextAccess :: hostActions turns := rfl
    rw [hacts, hp]
    refine ⟨us ++ vs, ?_⟩
    rw [htrans]
    rcases hj : o.judge (returnedValue c.machine t) with _ | bs | _
    case again =>
      rw [HostState.judged, hj] at hb htake
      rw [takeOps_again _ _ hj, ← hp]
      exact ⟨bytes, hv, hb, htake⟩
    case done =>
      rw [HostState.judged, hj] at hb htake
      rw [takeOps_done _ _ hj]
      exact ⟨bs ++ bytes, hv, by rw [hb, List.append_assoc], by rw [htake]; rfl⟩
    case fails =>
      have hfailed := hpath.failed_of_failed (by rw [HostState.judged, hj])
      rw [hf] at hfailed
      cases hfailed

/-- Settles O58, from the three parts above. -/
theorem hostRunsFollowExpansions : Obligations.HostRunsFollowExpansions := by
  refine ⟨fun pops last => ?_, fun depth c d turns later h => h.stepsAt_eq later,
    fun depth s lines turns d h hend hf => ?_⟩
  · refine runLines_of_takeOps ?_
    rw [transcript_pops, List.flatMap_singleton]
    exact takeOps_pops pops last
  · obtain ⟨vs, bytes, hv, hb, htake⟩ := h.takeOps_eq hend hf
    have hobs : observation s d = vs := by rw [observation, hv]; exact List.drop_left ..
    rw [hobs, show d.collected = bytes from hb]
    exact runLines_of_takeOps htake

end Sys2Proof.Machine
end

section
/-! PROOFS. POP, WAIT_IDLE and GET end in every weakly fair run (00_scope.md R16, 30_encoding.md R113, R114,
43_commands_output.md R200, R201). -/

namespace Sys2Proof.Machine

/-! ### Loops of a host end in fair runs -/

/-- How many steps the engine alone still has: a `PUSH` for each pending byte and a `DONE`. -/
def engineWork (e : Engine) : Nat := e.pend.length + e.busy.toNat

theorem engineTurn_isSome_iff {depth : Nat} {c : HostState} :
    (∃ d, engineTurn depth c = some d) ↔
      pushEnabled depth c.machine.engine = true ∨ doneEnabled c.machine.engine = true := by
  refine ⟨fun ⟨d, hd⟩ => ?_, engineTurn_isSome⟩
  by_contra hn
  rw [engineTurn_eq, if_neg (by simpa using hn)] at hd
  cases hd

/-- Each turn of the engine in a run uses up some of its work (R200, R201). -/
theorem engineWork_lt {depth : Nat} {c d : HostState} (h : engineTurn depth c = some d) :
    engineWork d.machine.engine < engineWork c.machine.engine := by
  have hen := engineTurn_isSome_iff.mp ⟨d, h⟩
  rw [engineTurn_some h, HostState.withEngine_engine]
  rcases engineStep_cases depth c.machine.engine with ⟨b, rest, hp, _, hq⟩ | ⟨hp, hb, hq⟩ | ⟨_, hidle, hfull⟩
  · rw [hq]; simp [engineWork, hp]
  · rw [hq]; simp [engineWork, hp, hb]
  · exfalso
    rcases hen with hen | hen
    · obtain ⟨hp, hf⟩ : c.machine.engine.pend ≠ [] ∧ c.machine.engine.fifo.length < depth := by
        simpa [pushEnabled] using hen
      exact absurd (hfull hp) (by omega)
    · obtain ⟨hb, hp⟩ : c.machine.engine.busy = true ∧ c.machine.engine.pend = [] := by
        simpa [doneEnabled] using hen
      simp [hidle hp] at hb

/-- Where the engine has no turn and the host has one, the run takes it. -/
theorem IsRun.host_step {depth : Nat} {run : Nat → HostState} {k : Nat} {d : HostState} (hr : IsRun depth run)
    (hnone : engineTurn depth (run k) = none) (hh : hostTurn depth (run k) = some d) : run (k + 1) = d := by
  rcases hr k with hx | hx | ⟨hx, _⟩
  · exact Option.some.inj (hx.symm.trans hh)
  · rw [hnone] at hx; cases hx
  · rw [hh] at hx; cases hx

/-- In a weakly fair run an engine step that is enabled now is taken at some later point, unless it is not enabled there
any more (R16). -/
theorem FairRun.engine_taken {depth : Nat} {run : Nat → HostState} {k : Nat} (hr : FairRun depth run)
    (h : ∃ d, engineTurn depth (run k) = some d) :
    ∃ j, (run (k + j)).machine.engine = (run k).machine.engine →
      engineTurn depth (run (k + j)) = some (run (k + j + 1)) := by
  obtain ⟨hpush, hdone⟩ := hr.weaklyFair
  rcases engineTurn_isSome_iff.mp h with h | h
  · obtain ⟨m, hm, htaken⟩ := hpush k
    refine ⟨m - k, ?_⟩
    rw [Nat.add_sub_cancel' hm]
    exact fun heq => htaken (by rw [heq]; exact h)
  · obtain ⟨m, hm, htaken⟩ := hdone k
    refine ⟨m - k, ?_⟩
    rw [Nat.add_sub_cancel' hm]
    exact fun heq => htaken (by rw [heq]; exact h)

/-- A loop of the host: while `P` holds its access goes round again without touching the engine, or leaves with `Q`; and
once the engine has no turn it leaves. -/
structure HostLoop (depth : Nat) (P Q : HostState → Prop) : Prop where
  /-- The host has an access. -/
  access : ∀ {c}, P c → hostTurn depth c ≠ none
  /-- The access leaves the loop, or it goes round again and leaves the engine as it is. -/
  round : ∀ {c d}, P c → hostTurn depth c = some d → Q d ∨ (P d ∧ d.machine.engine = c.machine.engine)
  /-- The engine's turns do not end the loop. -/
  engine : ∀ {c d}, P c → engineTurn depth c = some d → P d
  /-- Against an engine at rest the access leaves the loop. -/
  exit : ∀ {c d}, P c → engineTurn depth c = none → hostTurn depth c = some d → Q d

section
variable {depth : Nat} {P Q : HostState → Prop} {run : Nat → HostState}

/-- One step of a run in a loop: it leaves, goes round, or the engine has moved. -/
theorem HostLoop.step {k : Nat} (hl : HostLoop depth P Q) (hr : IsRun depth run) (h : P (run k)) :
    Q (run (k + 1)) ∨ P (run (k + 1)) ∧ ((run (k + 1)).machine.engine = (run k).machine.engine ∨
      engineTurn depth (run k) = some (run (k + 1))) := by
  rcases hr k with hx | hx | ⟨hx, _⟩
  · rcases hl.round h hx with hq | ⟨hp, he⟩
    · exact .inl hq
    · exact .inr ⟨hp, .inl he⟩
  · exact .inr ⟨hl.engine h hx, .inr hx⟩
  · exact absurd hx (hl.access h)

/-- A fair run leaves the loop or lets the engine do some of its work, if it has any: the host's accesses alone cannot
put it off for ever (R16). -/
theorem HostLoop.engine_moves {k j : Nat} (hl : HostLoop depth P Q) (hr : IsRun depth run) (h : P (run k))
    (hj : (run (k + j)).machine.engine = (run k).machine.engine →
      engineTurn depth (run (k + j)) = some (run (k + j + 1))) :
    ∃ n, k < n ∧ (Q (run n) ∨
      P (run n) ∧ engineWork (run n).machine.engine < engineWork (run k).machine.engine) := by
  induction j generalizing k with
  | zero =>
    have ht := hj rfl
    exact ⟨k + 1, k.lt_succ_self, .inr ⟨hl.engine h ht, engineWork_lt ht⟩⟩
  | succ j ih =>
    rcases hl.step hr h with hq | ⟨hp, he | ht⟩
    · exact ⟨k + 1, k.lt_succ_self, .inl hq⟩
    · rw [← Nat.add_assoc, Nat.add_right_comm, ← he] at hj
      obtain ⟨n, hn, hdone⟩ := ih hp hj
      rw [he] at hdone
      exact ⟨n, by omega, hdone⟩
    · exact ⟨k + 1, k.lt_succ_self, .inr ⟨hp, engineWork_lt ht⟩⟩

/-- Every weakly fair run leaves the loop: the engine's work is finite (R16). -/
theorem HostLoop.ends {k : Nat} (hl : HostLoop depth P Q) (hr : FairRun depth run) (h : P (run k)) :
    ∃ n, k < n ∧ Q (run n) := by
  induction hw : engineWork (run k).machine.engine using Nat.strong_induction_on generalizing k with
  | _ w ih =>
    subst hw
    by_cases hen : ∃ d, engineTurn depth (run k) = some d
    · obtain ⟨j, hj⟩ := hr.engine_taken hen
      obtain ⟨n, hn, hq | ⟨hp, hlt⟩⟩ := hl.engine_moves hr.isRun h hj
      · exact ⟨n, hn, hq⟩
      · obtain ⟨m, hm, hq⟩ := ih _ hlt hp rfl
        exact ⟨m, hn.trans hm, hq⟩
    · have hnone : engineTurn depth (run k) = none := Option.eq_none_iff_forall_ne_some.mpr fun d hd => hen ⟨d, hd⟩
      obtain ⟨d, hd⟩ := Option.ne_none_iff_exists'.mp (hl.access h)
      have hexit := hl.exit h hnone hd
      rw [← hr.isRun.host_step hnone hd] at hexit
      exact ⟨k + 1, k.lt_succ_self, hexit⟩

end

/-! ### POP and WAIT_IDLE -/

/-- The two engines differ in `FIFO`, `PEND` and `BUSY` at most, what the engine's turns and a pop write (R202). -/
def SameButQueues (e e' : Engine) : Prop := { e' with fifo := e.fifo, pend := e.pend, busy := e.busy } = e

theorem SameButQueues.refl (e : Engine) : SameButQueues e e := rfl

theorem SameButQueues.eq {e e' : Engine} (h : SameButQueues e e') :
    e' = { e with fifo := e'.fifo, pend := e'.pend, busy := e'.busy } := by
  rw [← h]

theorem SameButQueues.trans {e e' e'' : Engine} (h : SameButQueues e e') (h' : SameButQueues e' e'') :
    SameButQueues e e'' := by
  rw [h'.eq, h.eq]
  exact SameButQueues.refl e

theorem SameButQueues.engineStep (depth : Nat) {e e' : Engine} (h : SameButQueues e e') :
    SameButQueues e (engineStep depth e') := by
  refine h.trans ?_
  rcases engineStep_cases depth e' with ⟨_, _, _, _, hq⟩ | ⟨_, _, hq⟩ | ⟨hq, _⟩ <;> rw [hq] <;> rfl

/-- The host is at the operations `ops`, running, with `bytes` collected; the engine differs from `e` in its queues and
`BUSY` at most, and `queue` is on its way. -/
structure HostAt (e : Engine) (ops : List HostOp) (bytes queue : List Byte) (c : HostState) : Prop where
  program : c.program = ops
  running : c.failed = false
  collected : c.collected = bytes
  queue : c.machine.engine.queue = queue
  frame : SameButQueues e c.machine.engine

/-- The engine's turn does not move the host, and keeps what is on its way. -/
theorem HostAt.engineTurn {depth : Nat} {e : Engine} {ops : List HostOp} {bytes queue : List Byte} {c d : HostState}
    (h : HostAt e ops bytes queue c) (ht : engineTurn depth c = some d) : HostAt e ops bytes queue d := by
  obtain ⟨hp, hf, hc, hq, hframe⟩ := h
  rw [engineTurn_some ht]
  exact ⟨hp, hf, hc, (engineStep_queue depth _).trans hq, hframe.engineStep depth⟩

/-- An engine that has no turn but bytes on their way has a byte in its FIFO (R200). -/
theorem fifo_ne_nil_of_engineTurn_none {depth : Nat} {c : HostState} (hd : 1 ≤ depth)
    (hq : c.machine.engine.queue ≠ []) (h : engineTurn depth c = none) : c.machine.engine.fifo ≠ [] := by
  intro hf
  have hp : c.machine.engine.pend ≠ [] := by simpa [Engine.queue, hf] using hq
  have hroom : 0 < depth := hd
  obtain ⟨d, hd⟩ := engineTurn_isSome (depth := depth) (c := c) (.inl (by simp [pushEnabled, hf, hp, hroom]))
  rw [h] at hd
  cases hd

/-- POP with a byte on its way is a loop that leaves with the oldest one (R113, R203). -/
theorem popLoop {depth : Nat} (hd : 1 ≤ depth) (e : Engine) (rest : List HostOp) (bytes queue : List Byte) (b : Byte) :
    HostLoop depth (HostAt e (.pop :: rest) bytes (b :: queue)) (HostAt e rest (bytes ++ [b]) queue) := by
  have leaves : ∀ {c d : HostState}, HostAt e (.pop :: rest) bytes (b :: queue) c → c.machine.engine.fifo ≠ [] →
      hostTurn depth c = some d → HostAt e rest (bytes ++ [b]) queue d := by
    rintro c d ⟨hp, hf, hc, hq, hframe⟩ hne ht
    rcases hfifo : c.machine.engine.fifo with _ | ⟨x, xs⟩
    · exact absurd hfifo hne
    · obtain ⟨rfl, hqueue⟩ : x = b ∧ xs ++ c.machine.engine.pend = queue := by simpa [Engine.queue, hfifo] using hq
      rw [hostTurn_pop_byte hf hp hfifo] at ht
      cases ht
      exact ⟨rfl, hf, by rw [hc], hqueue, hframe.trans rfl⟩
  refine ⟨?_, ?_, fun h ht => h.engineTurn ht, ?_⟩
  · rintro c ⟨hp, hf, _⟩
    rcases hfifo : c.machine.engine.fifo with _ | ⟨x, xs⟩
    · simp [hostTurn_pop_empty hf hp hfifo]
    · simp [hostTurn_pop_byte hf hp hfifo]
  · intro c d h ht
    by_cases hfifo : c.machine.engine.fifo = []
    · rw [hostTurn_pop_empty h.running h.program hfifo] at ht
      cases ht
      exact .inr ⟨⟨h.program, h.running, h.collected, h.queue, h.frame⟩, rfl⟩
    · exact .inl (leaves h hfifo ht)
  · intro c d h hnone ht
    exact leaves h (fifo_ne_nil_of_engineTurn_none hd (by simp [h.queue]) hnone) ht

/-- The engine's turns keep item 4 of R46, that a pending byte implies `BUSY` = 1. -/
theorem engineStep_pend_busy (depth : Nat) {e : Engine} (h : e.pend ≠ [] → e.busy = true) :
    (engineStep depth e).pend ≠ [] → (engineStep depth e).busy = true := by
  rcases engineStep_cases depth e with ⟨b, rest, hp, _, hq⟩ | ⟨hp, _, hq⟩ | ⟨hq, _⟩ <;> rw [hq]
  · exact fun _ => h (by simp [hp])
  · exact fun hne => absurd hp hne
  · exact h

/-- The host waits in WAIT_IDLE on an engine whose pending bytes keep it busy (R46 item 4). -/
structure WaitsInWaitIdle (e : Engine) (rest : List HostOp) (bytes queue : List Byte) (c : HostState) : Prop where
  hostAt : HostAt e (.waitIdle :: rest) bytes queue c
  pend_busy : c.machine.engine.pend ≠ [] → c.machine.engine.busy = true

/-- The host has come to `ops` and the engine is idle with everything in its FIFO. -/
structure HostAtIdle (e : Engine) (ops : List HostOp) (bytes queue : List Byte) (c : HostState) : Prop where
  hostAt : HostAt e ops bytes queue c
  idle : c.machine.engine.busy = false
  pend : c.machine.engine.pend = []

theorem HostAtIdle.engine_eq {e : Engine} {ops : List HostOp} {bytes queue : List Byte} {c : HostState}
    (h : HostAtIdle e ops bytes queue c) :
    c.machine.engine = { e with busy := false, fifo := queue, pend := [] } := by
  have hq := h.hostAt.queue
  rw [Engine.queue, h.pend, List.append_nil] at hq
  rw [h.hostAt.frame.eq, h.idle, h.pend, hq]

/-- With room in the FIFO, a busy engine has a turn (R200, R201). -/
theorem idle_of_engineTurn_none {depth : Nat} {c : HostState} (hfit : c.machine.engine.queue.length ≤ depth)
    (h : engineTurn depth c = none) : c.machine.engine.busy = false := by
  by_contra hb
  rw [Bool.not_eq_false] at hb
  obtain ⟨d, hd⟩ : ∃ d, engineTurn depth c = some d := by
    rw [engineTurn_isSome_iff]
    rcases hp : c.machine.engine.pend with _ | ⟨x, xs⟩
    · exact .inr (by simp [doneEnabled, hb, hp])
    · rw [Engine.queue, hp, List.length_append, List.length_cons] at hfit
      exact .inl (by simp [pushEnabled, hp]; omega)
  rw [h] at hd
  cases hd

/-- WAIT_IDLE with room in the FIFO is a loop that leaves with everything in the FIFO and `BUSY` = 0 (R113, R284). -/
theorem waitIdleLoop {depth : Nat} (e : Engine) (rest : List HostOp) (bytes : List Byte) {queue : List Byte}
    (hfit : queue.length ≤ depth) :
    HostLoop depth (WaitsInWaitIdle e rest bytes queue) (HostAtIdle e rest bytes queue) := by
  have leaves : ∀ {c d : HostState}, WaitsInWaitIdle e rest bytes queue c → c.machine.engine.busy = false →
      hostTurn depth c = some d → HostAtIdle e rest bytes queue d := by
    rintro c d ⟨⟨hp, hf, hc, hq, hframe⟩, hpb⟩ hb ht
    have hpend : c.machine.engine.pend = [] := by
      by_contra hne
      simp [hpb hne] at hb
    rw [hostTurn_waitIdle hf hp] at ht
    cases ht
    exact ⟨⟨by simp [hb], hf, hc, hq, hframe⟩, hb, hpend⟩
  refine ⟨?_, ?_, ?_, ?_⟩
  · rintro c ⟨⟨hp, hf, _⟩, _⟩
    simp [hostTurn_waitIdle hf hp]
  · rintro c d h ht
    rcases hb : c.machine.engine.busy
    case false => exact .inl (leaves h hb ht)
    case true =>
      obtain ⟨⟨hp, hf, hc, hq, hframe⟩, hpb⟩ := h
      rw [hostTurn_waitIdle hf hp] at ht
      cases ht
      exact .inr ⟨⟨⟨by simp [hb], hf, hc, hq, hframe⟩, hpb⟩, rfl⟩
  · rintro c d ⟨hat, hpb⟩ ht
    refine ⟨hat.engineTurn ht, ?_⟩
    rw [engineTurn_some ht]
    exact engineStep_pend_busy depth hpb
  · intro c d h hnone ht
    exact leaves h (idle_of_engineTurn_none (by rw [h.hostAt.queue]; exact hfit) hnone) ht

/-- Settles O59: each loop leaves, with what its loop lemma says. -/
theorem hostLoopsEndInFairRuns : Obligations.HostLoopsEndInFairRuns := by
  intro depth run k rest hd hr hf e
  refine ⟨fun b queue hp hq => ?_, fun hp hpb hfit => ?_⟩
  · obtain ⟨n, hn, hat⟩ := (popLoop hd e rest (run k).collected queue b).ends hr
      ⟨hp, hf, rfl, hq, SameButQueues.refl e⟩
    exact ⟨n, hn, hat.program, hat.running, hat.collected, hat.queue, hat.frame⟩
  · have hroom : (e.fifo ++ e.pend).length ≤ depth := by rwa [List.length_append]
    obtain ⟨n, hn, h⟩ := (waitIdleLoop e rest (run k).collected hroom).ends hr
      ⟨⟨hp, hf, rfl, rfl, SameButQueues.refl e⟩, hpb⟩
    exact ⟨n, hn, h.hostAt.program, h.hostAt.running, h.hostAt.collected, h.engine_eq⟩

/-! ### GET -/

/-- Every turn of a run keeps the invariants (R46). -/
theorem IsRun.engineInv {depth : Nat} {run : Nat → HostState} {k : Nat} (hr : IsRun depth run)
    (h : EngineInv depth (run k).machine.engine) (n : Nat) (hn : k ≤ n) : EngineInv depth (run n).machine.engine := by
  refine hr.invariant (P := fun c => EngineInv depth c.machine.engine) ?_ ?_ h n hn
  · intro c d hinv hx
    rcases hp : c.program with _ | ⟨o, rest⟩
    · rw [hostTurn_of_noFurtherAccess (.inl hp)] at hx; cases hx
    · obtain ⟨_, i, t, _, hi, rfl⟩ := hostTurn_cases hp hx
      rw [HostState.judged_machine]
      exact exec_inv hinv hi
  · intro c d hinv hx
    rw [engineTurn_some hx]
    exact engineStep_inv hinv

/-- `n` POPs with as many bytes on their way end with the first `n` collected, in order (R113). -/
theorem FairRun.pops_end {depth : Nat} {run : Nat → HostState} (hr : FairRun depth run) (hd : 1 ≤ depth) {e : Engine}
    {rest : List HostOp} {n k : Nat} {bytes queue : List Byte} (hn : n ≤ queue.length)
    (h : HostAt e (List.replicate n .pop ++ rest) bytes queue (run k)) :
    ∃ m, k ≤ m ∧ HostAt e rest (bytes ++ queue.take n) (queue.drop n) (run m) := by
  induction n generalizing k bytes queue with
  | zero => exact ⟨k, Nat.le_refl k, by simpa using h⟩
  | succ n ih =>
    rcases queue with _ | ⟨b, queue⟩
    · exact absurd hn (Nat.not_succ_le_zero n)
    · rw [List.replicate_succ, List.cons_append] at h
      obtain ⟨m, hm, hat⟩ := (popLoop hd e _ bytes queue b).ends hr h
      obtain ⟨m', hm', hend⟩ := ih (Nat.le_of_succ_le_succ hn) hat
      exact ⟨m', by omega, by simpa using hend⟩

theorem engineTurn_idle {depth : Nat} {c : HostState} (hp : c.machine.engine.pend = [])
    (hb : c.machine.engine.busy = false) : engineTurn depth c = none := by
  simp [engineTurn_eq, pushEnabled, doneEnabled, hp, hb]

/-- The command word of GET's PRODUCE carries its count (R92, R113). -/
theorem decodeCommand_produce (n : BitVec 24) : decodeCommand (commandWord 0x5 (n.setWidth 28)) = .produce n 0 := by
  have hw : n.setWidth 28 = 0#4 ++ n := by
    apply BitVec.eq_of_toNat_eq
    rw [BitVec.toNat_setWidth, BitVec.toNat_append]
    simp
    omega
  rw [decodeCommand_commandWord, hw]
  exact decodeFields_produce n 0

/-- GET's first access: the PRODUCE executes, and its bytes come after what the FIFO held (R113, R190). -/
theorem get_produces {depth : Nat} {run : Nat → HostState} {k : Nat} {n : BitVec 24} {ops : List HostOp}
    (hr : IsRun depth run) (hf : (run k).failed = false) (hpend : (run k).machine.engine.pend = [])
    (hp : (run k).program = .access (writeCmd (commandWord 0x5 (n.setWidth 28))) :: ops)
    (he : (run k).machine.engine.err = .noError) (hb : (run k).machine.engine.busy = false)
    (hs : (run k).machine.engine.seeded = true) :
    HostAt (generate n.toNat (run k).machine.engine).2 ops (run k).collected
      ((run k).machine.engine.fifo ++ (generate n.toNat (run k).machine.engine).1) (run (k + 1)) := by
  have hx := exec_of_produces (i := .wrCmd (commandWord 0x5 (n.setWidth 28))) ⟨decodeCommand_produce n, he, hb, hs⟩
  rw [hr.host_step (engineTurn_idle hpend hb) (hostTurn_access hf hp rfl hx)]
  refine ⟨rfl, hf, rfl, ?_, rfl⟩
  rw [generate_keeps]
  rfl

/-- CHECK_OK against an idle engine without an error is passed at once (R113). -/
theorem checkOk_passes {depth : Nat} {run : Nat → HostState} {k : Nat} {e : Engine} {rest : List HostOp}
    {bytes queue : List Byte} (hr : IsRun depth run) (he : e.err = .noError)
    (h : HostAtIdle e (.checkOk :: rest) bytes queue (run k)) : HostAtIdle e rest bytes queue (run (k + 1)) := by
  obtain ⟨⟨hp, hf, hc, hq, hframe⟩, hb, hpend⟩ := h
  have herr : (run k).machine.engine.err = .noError := by rw [hframe.eq]; exact he
  rw [hr.host_step (engineTurn_idle hpend hb) (hostTurn_checkOk hf hp herr)]
  exact ⟨⟨rfl, hf, hc, hq, hframe⟩, hb, hpend⟩

/-- Settles O60: GET is its PRODUCE, its POPs, WAIT_IDLE with room for what is left, and CHECK_OK. -/
theorem getReturnsGeneratedBytes : Obligations.GetReturnsGeneratedBytes := by
  intro depth run k n rest hd hr hf e hinv he hb hs hp
  have hat := get_produces (ops := List.replicate n.toNat .pop ++ (.waitIdle :: .checkOk :: rest)) hr.isRun hf
    (hinv.pend_of_idle hb) (by simpa [HostLine.expand] using hp) he hb hs
  rw [show (run k).machine.engine = e from rfl] at hat
  have hlen := generate_length n.toNat e
  have hfifo := hinv.fifo_le
  have hroom : ((e.fifo ++ (generate n.toNat e).1).drop n.toNat).length ≤ depth := by
    rw [List.length_drop, List.length_append]; omega
  obtain ⟨m₁, hm₁, hpopped⟩ := hr.pops_end hd (by rw [List.length_append]; omega) hat
  have hinv₁ := hr.isRun.engineInv hinv m₁ (by omega)
  obtain ⟨m₂, hm₂, hidle⟩ := (waitIdleLoop _ _ _ hroom).ends hr ⟨hpopped, hinv₁.pend_busy⟩
  have herr : (generate n.toNat e).2.err = .noError := by rw [generate_keeps]; exact he
  have hend := checkOk_passes hr.isRun herr hidle
  refine ⟨m₂ + 1, by omega, hend.hostAt.program, hend.hostAt.running, hend.hostAt.collected, ?_⟩
  exact hend.engine_eq

end Sys2Proof.Machine
end

section
/-! PROOFS. Who writes which part of the engine's state, what reset leaves there, and that SEED depends on the variant
and the seed bytes alone (10_state.md R23, R24, R40 to R42, R47; 40_legacy_keystream.md R121; 41_counter_drbg.md
R148). -/

namespace Sys2Proof.Machine

/-! ### The resets -/

/-- The reset values are the same with either value of `BUSY` (R47). -/
theorem reset_values (busy : Bool) : ResetValues { Engine.reset with busy := busy } where
  variant_ctr128 := rfl
  not_seeded := rfl
  no_error := rfl
  slen_zero := rfl
  seedBuf_zero _ h := Vector.getElem_replicate h
  table_zero _ h := Vector.getElem_replicate h
  i_zero := rfl
  j_zero := rfl
  key_zero _ h := Vector.getElem_replicate h
  v_zero _ h := Vector.getElem_replicate h
  pend_empty := rfl
  fifo_empty := rfl

theorem exec_reset (s : State) : exec .reset s = .next (s.withEngine Engine.reset) := rfl

/-- SOFT_RESET is accepted in every state (R221, R225). -/
theorem exec_softReset (s : State) :
    exec (.softReset 0) s = .next (s.withEngine { Engine.reset with busy := true }) := rfl

/-- Settles O1: both resets leave `Engine.reset` up to `BUSY`, and with nothing pending the engine's turn is `DONE`. -/
theorem resetActionsLoadResetValues : Obligations.ResetActionsLoadResetValues := by
  refine ⟨⟨reset_values false, rfl⟩, fun s => ⟨?_, ?_, rfl⟩⟩
  · exact ⟨_, exec_reset s, reset_values false, rfl⟩
  · refine ⟨_, exec_softReset s, reset_values true, rfl, fun depth => ?_⟩
    rw [engineStep_done rfl]

/-- Settles O36: it is the invariants' base case. -/
theorem resetMeetsEngineInvariant : Obligations.ResetMeetsEngineInvariant := fun depth => reset_inv depth false

/-- Settles O2, read by read; with nothing pending and `BUSY` = 0 neither engine step is enabled. -/
theorem hostReadsAfterReset : Obligations.HostReadsAfterReset :=
  ⟨rfl, rfl, rfl, rfl, rfl, rfl, rfl, rfl, rfl, fun _ => rfl, rfl⟩

/-! ### What an instruction does to the engine -/

/-- Raising an error writes nothing but `ERR`, and the FIFO's pop nothing but the FIFO. So an instruction resets, has
an ordinary command's effect, or leaves the engine as it is up to those two (R203, R225, R244). -/
theorem exec_engine_cases {i : Instr} {s t : State} (h : exec i s = .next t) :
    ((commandOf i = .softReset 0 ∨ i = .reset) ∧ ∃ busy, t.engine = { Engine.reset with busy := busy }) ∨
    (s.engine.err = .noError ∧ s.engine.busy = false ∧ OrdinaryEffect (commandOf i) s.engine t.engine) ∨
    t.engine = { s.engine with err := t.engine.err, fifo := t.engine.fifo } := by
  rcases exec_effects i s t h with ⟨op, a, hc, rfl⟩ | ⟨hi, rfl⟩ | ⟨_, rfl⟩ | ⟨⟨v, rfl⟩, _⟩ | ⟨rfl, _⟩
  · rw [hc]
    simp only [State.withEngine_engine]
    rcases acceptFields_effects op a s.engine with ⟨c, hq⟩ | ⟨hi, hq⟩ | ⟨_, hq⟩ | ⟨_, hq⟩ | hx
    · rw [hq, raise_keeps]; exact .inr (.inr rfl)
    · exact .inl ⟨.inl hi, true, hq⟩
    · rw [hq]; exact .inr (.inr rfl)
    · rw [hq]; exact .inr (.inr rfl)
    · exact .inr (.inl hx)
  · exact .inl ⟨.inr hi, false, rfl⟩
  · rw [State.returnRead_engine, State.withEngine_engine, popFifo_keeps]
    exact .inr (.inr rfl)
  · exact .inr (.inr rfl)
  · exact .inr (.inr rfl)

/-- The engine's turn writes `BUSY` and the output queues only (R202). -/
theorem engineStep_keeps (depth : Nat) (e : Engine) :
    engineStep depth e = { e with
      busy := (engineStep depth e).busy, fifo := (engineStep depth e).fifo, pend := (engineStep depth e).pend } :=
  ((SameButQueues.refl e).engineStep depth).eq

/-! ### Seeding and generating write the selected family only -/

theorem seedGenerator_family (e : Engine) :
    (e.variant.keyLen? = none ∧ seedGenerator e = { e with legacy := (seedGenerator e).legacy }) ∨
    (e.variant.keyLen? ≠ none ∧ seedGenerator e = { e with drbg := (seedGenerator e).drbg }) := by
  unfold seedGenerator
  cases hv : e.variant
  case legacy | legacyDrop => exact .inl ⟨rfl, by simp only⟩
  case ctr128 | ctr192 | ctr256 => exact .inr ⟨nofun, rfl⟩

theorem seedGenerator_variant (e : Engine) : (seedGenerator e).variant = e.variant := by
  rw [seedGenerator_keeps]

theorem generate_family (n : Nat) (e : Engine) :
    (e.variant.keyLen? = none ∧ (generate n e).2 = { e with legacy := (generate n e).2.legacy }) ∨
    (e.variant.keyLen? ≠ none ∧ (generate n e).2 = { e with drbg := (generate n e).2.drbg }) := by
  unfold generate
  cases hk : e.variant.keyLen?
  case none => exact .inl ⟨rfl, rfl⟩
  case some kl => exact .inr ⟨nofun, rfl⟩

/-! ### Writers among the ordinary commands -/

/-- SELECT writes `VARIANT` and clears `SEEDED`, SEED sets `SEEDED` (R23, R24). -/
theorem OrdinaryEffect.variant_seeded {i : Instr} {e e' : Engine} (h : OrdinaryEffect i e e') :
    (e'.variant = e.variant ∧ e'.seeded = e.seeded) ∨
    (∃ g : Variant, i = .select g.code 0 ∧ e'.variant = g ∧ e'.seeded = false) ∨
    (i = .seed 0 ∧ seedLengthOk e = true ∧ e'.variant = e.variant ∧ e'.seeded = true) := by
  rcases h with ⟨_, rfl⟩ | ⟨g, hi, rfl⟩ | ⟨_, rfl⟩ | ⟨b, _, _, rfl⟩ | ⟨hi, hs, rfl⟩ | ⟨n, _, _, rfl⟩ | ⟨_, rfl⟩
  · exact .inl ⟨rfl, rfl⟩
  · exact .inr (.inl ⟨g, hi, rfl, rfl⟩)
  · exact .inl ⟨rfl, rfl⟩
  · exact .inl ⟨rfl, rfl⟩
  · rw [seedGenerator_keeps]; exact .inr (.inr ⟨hi, hs, rfl, rfl⟩)
  · rw [generate_keeps]; exact .inl ⟨rfl, rfl⟩
  · exact .inl ⟨rfl, rfl⟩

/-- SEED and PRODUCE write the generator arrays of the selected family (R41, R42). -/
theorem OrdinaryEffect.generator {i : Instr} {e e' : Engine} (h : OrdinaryEffect i e e') :
    (e'.legacy = e.legacy ∧ e'.drbg = e.drbg) ∨
    ((i = .seed 0 ∨ ∃ n, i = .produce n 0) ∧
      ((e.variant.keyLen? = none ∧ e'.drbg = e.drbg) ∨ (e.variant.keyLen? ≠ none ∧ e'.legacy = e.legacy))) := by
  rcases h with ⟨_, rfl⟩ | ⟨_, _, rfl⟩ | ⟨_, rfl⟩ | ⟨b, _, _, rfl⟩ | ⟨hi, _, rfl⟩ | ⟨n, hi, _, rfl⟩ | ⟨_, rfl⟩
  · exact .inl ⟨rfl, rfl⟩
  · exact .inl ⟨rfl, rfl⟩
  · exact .inl ⟨rfl, rfl⟩
  · exact .inl ⟨rfl, rfl⟩
  · refine .inr ⟨.inl hi, ?_⟩
    rcases seedGenerator_family e with ⟨hv, hq⟩ | ⟨hv, hq⟩ <;> rw [hq]
    · exact .inl ⟨hv, rfl⟩
    · exact .inr ⟨hv, rfl⟩
  · refine .inr ⟨.inr ⟨n, hi⟩, ?_⟩
    rcases generate_family n.toNat e with ⟨hv, hq⟩ | ⟨hv, hq⟩ <;> rw [hq]
    · exact .inl ⟨hv, rfl⟩
    · exact .inr ⟨hv, rfl⟩
  · exact .inl ⟨rfl, rfl⟩

/-- SEED_CLEAR writes `SLEN`, SEED_BYTE writes `SLEN` and `SEEDBUF` (R40). -/
theorem OrdinaryEffect.seedBuffer {i : Instr} {e e' : Engine} (h : OrdinaryEffect i e e') :
    (e'.slen = e.slen ∧ e'.seedBuf = e.seedBuf) ∨ (i = .seedClear 0 ∧ e'.seedBuf = e.seedBuf) ∨
    ∃ b, i = .seedByte b 0 := by
  rcases h with ⟨_, rfl⟩ | ⟨_, _, rfl⟩ | ⟨hi, rfl⟩ | ⟨b, hi, _⟩ | ⟨_, _, rfl⟩ | ⟨n, _, _, rfl⟩ | ⟨_, rfl⟩
  · exact .inl ⟨rfl, rfl⟩
  · exact .inl ⟨rfl, rfl⟩
  · exact .inr (.inl ⟨hi, rfl⟩)
  · exact .inr (.inr ⟨b, hi⟩)
  · rw [seedGenerator_keeps]; exact .inl ⟨rfl, rfl⟩
  · rw [generate_keeps]; exact .inl ⟨rfl, rfl⟩
  · exact .inl ⟨rfl, rfl⟩

/-! ### VARIANT -/

theorem exec_variant_writers {i : Instr} {s t : State} (h : exec i s = .next t)
    (hne : t.engine.variant ≠ s.engine.variant) :
    (∃ g : Variant, commandOf i = .select g.code 0 ∧ t.engine.variant = g) ∨ commandOf i = .softReset 0 ∨
      i = .reset := by
  rcases exec_engine_cases h with ⟨hr, _⟩ | ⟨_, _, hx⟩ | hq
  · exact .inr hr
  · rcases hx.variant_seeded with ⟨hv, _⟩ | ⟨g, hi, hv, _⟩ | ⟨_, _, hv, _⟩
    · exact absurd hv hne
    · exact .inl ⟨g, hi, hv⟩
    · exact absurd hv hne
  · rw [hq] at hne
    exact absurd rfl hne

/-- Settles O37: the writers by cases on the instruction's effect, the functions of `VARIANT` variant by variant. -/
theorem onlySelectAndResetWriteVariant : Obligations.OnlySelectAndResetWriteVariant := by
  refine ⟨fun i s t h hne => exec_variant_writers h hne, fun depth e => ?_, ⟨rfl, rfl, rfl, rfl, rfl⟩, fun g => ?_,
    fun _ => rfl⟩
  · rw [engineStep_keeps]
  · cases g <;> decide

/-! ### SEEDED -/

theorem exec_sets_seeded {i : Instr} {s t : State} (h : exec i s = .next t) (hs : s.engine.seeded = false)
    (ht : t.engine.seeded = true) :
    commandOf i = .seed 0 ∧ s.engine.err = .noError ∧ s.engine.busy = false ∧ seedLengthOk s.engine = true := by
  rcases exec_engine_cases h with ⟨_, _, hq⟩ | ⟨he, hb, hx⟩ | hq
  · simp [hq] at ht
  · rcases hx.variant_seeded with ⟨_, hq⟩ | ⟨g, _, _, hq⟩ | ⟨hi, hok, _⟩
    · simp [hq, hs] at ht
    · simp [hq] at ht
    · exact ⟨hi, he, hb, hok⟩
  · rw [hq] at ht
    simp [hs] at ht

theorem exec_clears_seeded {i : Instr} {s t : State} (h : exec i s = .next t) (hs : s.engine.seeded = true)
    (ht : t.engine.seeded = false) :
    ((∃ g : Variant, commandOf i = .select g.code 0) ∧ s.engine.err = .noError ∧ s.engine.busy = false) ∨
      commandOf i = .softReset 0 ∨ i = .reset := by
  rcases exec_engine_cases h with ⟨hr, _⟩ | ⟨he, hb, hx⟩ | hq
  · exact .inr hr
  · rcases hx.variant_seeded with ⟨_, hq⟩ | ⟨g, hi, _⟩ | ⟨_, _, _, hq⟩
    · simp [hq, hs] at ht
    · exact .inl ⟨⟨g, hi⟩, he, hb⟩
    · simp [hq] at ht
  · rw [hq] at ht
    simp [hs] at ht

/-- R175: the length is positive, and at most 16 + keylen for a counter DRBG. -/
theorem seedLengthOk_iff (e : Engine) :
    seedLengthOk e = true ↔ 0 < e.slen ∧ ∀ kl, e.variant.keyLen? = some kl → e.slen ≤ 16 + kl := by
  unfold seedLengthOk
  cases e.variant.keyLen?
  case none => simp [Nat.pos_iff_ne_zero]
  case some kl =>
    rw [Bool.and_eq_true, decide_eq_true_eq]
    simp [seedLenOf, Config.outLen, Nat.pos_iff_ne_zero]

/-- An ordinary command with a legal operand executes when no error is pending and the engine is idle (R225). -/
theorem ordinaryCommand_of_accepted {e : Engine} (done : Engine) (he : e.err = .noError) (hb : e.busy = false) :
    ordinaryCommand true e done = done := by
  simp [ordinaryCommand, he, hb]

/-- SEED by the acceptance steps (R175, R225). -/
theorem exec_seed (a : BitVec 28) (s : State) :
    exec (.seed a) s = .next (s.withEngine (ordinaryCommand (a == 0) s.engine (seedEffect s.engine))) := by
  change Host.Outcome.next (s.withEngine (acceptFields 4 a s.engine)) = _
  rw [acceptFields_ordinary 4 _ _ (by decide)]
  rfl

/-- PRODUCE by the acceptance steps (R190, R225). -/
theorem exec_produce (n : BitVec 24) (r : BitVec 4) (s : State) :
    exec (.produce n r) s =
      .next (s.withEngine (ordinaryCommand (r == 0) s.engine (produceEffect n.toNat s.engine))) := by
  have hx : executeCommand 5 (r ++ n) s.engine = produceEffect ((r ++ n).extractLsb' 0 24).toNat s.engine := rfl
  change Host.Outcome.next (s.withEngine (acceptFields 5 (r ++ n) s.engine)) = _
  rw [acceptFields_ordinary 5 _ _ (by decide), operandLegal_produce, hx, low_of_append]

theorem exec_seed_accepted {s : State} (he : s.engine.err = .noError) (hb : s.engine.busy = false) :
    exec (.seed 0) s = .next (s.withEngine (seedEffect s.engine)) :=
  (exec_seed 0 s).trans (by rw [beq_self_eq_true, ordinaryCommand_of_accepted _ he hb])

/-- Settles O38: who changes `SEEDED` by cases on the instruction's effect, then the four commands' own equations. -/
theorem onlySeedSetsSeeded : Obligations.OnlySeedSetsSeeded := by
  refine ⟨fun i s t h => ⟨exec_sets_seeded h, exec_clears_seeded h⟩, seedLengthOk_iff, fun depth e => ?_,
    fun s he hb => ⟨fun hok => ⟨_, exec_seed_accepted he hb, ?_⟩, fun g => ?_⟩,
    fun s => ⟨⟨_, exec_softReset s, rfl⟩, _, exec_reset s, rfl⟩, fun n s hs he hb => ?_⟩
  · rw [engineStep_keeps]
  · rw [seedEffect, if_pos hok]
  · obtain ⟨_, hselect, _⟩ := selectChoosesVariant
    exact ⟨_, hselect g 0 s, by rw [beq_self_eq_true, ordinaryCommand_of_accepted _ he hb]⟩
  · rw [exec_produce, beq_self_eq_true, ordinaryCommand_of_accepted _ he hb]
    simp [produceEffect, hs, raise_of_noError _ he]

/-! ### The generator arrays and the seed buffer -/

theorem exec_generator_writers {i : Instr} {s t : State} (h : exec i s = .next t) :
    (t.engine.legacy = s.engine.legacy ∧ t.engine.drbg = s.engine.drbg) ∨
    ((commandOf i = .seed 0 ∨ ∃ n, commandOf i = .produce n 0) ∧
      ((s.engine.variant.keyLen? = none ∧ t.engine.drbg = s.engine.drbg) ∨
        (s.engine.variant.keyLen? ≠ none ∧ t.engine.legacy = s.engine.legacy))) ∨
    commandOf i = .softReset 0 ∨ i = .reset := by
  rcases exec_engine_cases h with ⟨hr, _⟩ | ⟨_, _, hx⟩ | hq
  · exact .inr (.inr hr)
  · exact hx.generator.imp_right .inl
  · rw [hq]; exact .inl ⟨rfl, rfl⟩

theorem exec_seedBuffer_writers {i : Instr} {s t : State} (h : exec i s = .next t) :
    (t.engine.slen = s.engine.slen ∧ t.engine.seedBuf = s.engine.seedBuf) ∨
    (commandOf i = .seedClear 0 ∧ t.engine.seedBuf = s.engine.seedBuf) ∨ (∃ b, commandOf i = .seedByte b 0) ∨
    commandOf i = .softReset 0 ∨ i = .reset := by
  rcases exec_engine_cases h with ⟨hr, _⟩ | ⟨_, _, hx⟩ | hq
  · exact .inr (.inr (.inr hr))
  · exact hx.seedBuffer.imp_right (.imp_right .inl)
  · rw [hq]; exact .inl ⟨rfl, rfl⟩

/-- Settles O41: the two lemmas above, read array by array. -/
theorem generatorAndSeedBufferWriters : Obligations.GeneratorAndSeedBufferWriters := by
  refine ⟨fun i s t h => ?_, fun depth e => ?_⟩
  · have hgen := exec_generator_writers h
    have hbuf := exec_seedBuffer_writers h
    refine ⟨fun hne => ?_, fun hne => ?_, fun hne => ?_, fun hne => ?_⟩
    · rcases hgen with ⟨hq, _⟩ | ⟨hi, ⟨hv, _⟩ | ⟨_, hq⟩⟩ | hr
      · exact absurd hq hne
      · exact .inl ⟨hv, hi⟩
      · exact absurd hq hne
      · exact .inr hr
    · rcases hgen with ⟨_, hq⟩ | ⟨hi, ⟨_, hq⟩ | ⟨hv, _⟩⟩ | hr
      · exact absurd hq hne
      · exact absurd hq hne
      · exact .inl ⟨hv, hi⟩
      · exact .inr hr
    · rcases hbuf with ⟨hq, _⟩ | ⟨hi, _⟩ | hw
      · exact absurd hq hne
      · exact .inl hi
      · exact .inr hw
    · rcases hbuf with ⟨_, hq⟩ | ⟨_, hq⟩ | hw
      · exact absurd hq hne
      · exact absurd hq hne
      · exact hw
  · rw [engineStep_keeps]
    exact ⟨rfl, rfl, rfl, rfl⟩

/-! ### SEED replaces the generator -/

/-- The two engines have the same variant selected and agree on the arrays of its family. -/
structure SameGenerator (e₁ e₂ : Engine) : Prop where
  variant : e₁.variant = e₂.variant
  legacy : e₁.variant.keyLen? = none → e₁.legacy = e₂.legacy
  drbg : e₁.variant.keyLen? ≠ none → e₁.drbg = e₂.drbg

/-- Generating reads the variant and the selected family's arrays only (R123, R149). -/
theorem SameGenerator.generate_eq {e₁ e₂ : Engine} (h : SameGenerator e₁ e₂) (n : Nat) :
    (generate n e₁).1 = (generate n e₂).1 := by
  unfold generate
  rw [← h.variant]
  cases hk : e₁.variant.keyLen?
  case none => simp only [h.legacy hk]
  case some kl => simp only [h.drbg (by simp [hk])]

/-- Seeding reads the variant and the seed bytes only (R121, R147, R148). -/
theorem seedGenerator_sameGenerator {e₁ e₂ : Engine} (hv : e₁.variant = e₂.variant)
    (hs : seedBytes e₁ = seedBytes e₂) : SameGenerator (seedGenerator e₁) (seedGenerator e₂) := by
  refine ⟨by rw [seedGenerator_variant, seedGenerator_variant, hv], fun h => ?legacy, fun h => ?drbg⟩ <;>
    rw [seedGenerator_variant] at h <;> unfold seedGenerator <;> rw [← hv, ← hs] <;> cases hk : e₁.variant
  case legacy.legacy | legacy.legacyDrop => simp only
  case legacy.ctr128 | legacy.ctr192 | legacy.ctr256 => simp [hk, Variant.keyLen?] at h
  case drbg.legacy | drbg.legacyDrop => simp [hk, Variant.keyLen?] at h
  case drbg.ctr128 | drbg.ctr192 | drbg.ctr256 => rfl

/-- SEED executed against an idle engine raises nothing exactly when the variant accepts the seed length (R175). -/
theorem seedEffect_noError_iff {e : Engine} (he : e.err = .noError) :
    (seedEffect e).err = .noError ↔ seedLengthOk e = true := by
  unfold seedEffect
  split
  next hok => rw [seedGenerator_keeps]; simp [he, hok]
  next hok => simp [raise_of_noError _ he, hok]

theorem seedLengthOk_congr {e₁ e₂ : Engine} (hv : e₁.variant = e₂.variant) (hl : e₁.slen = e₂.slen) :
    seedLengthOk e₁ = seedLengthOk e₂ := by
  rw [seedLengthOk, seedLengthOk, hv, hl]

/-- An accepted seed leaves the generator that seeding gives (R175). -/
theorem seedEffect_sameGenerator {e₁ e₂ : Engine} (hv : e₁.variant = e₂.variant) (hs : seedBytes e₁ = seedBytes e₂)
    (h₁ : seedLengthOk e₁ = true) (h₂ : seedLengthOk e₂ = true) : SameGenerator (seedEffect e₁) (seedEffect e₂) := by
  rw [seedEffect, if_pos h₁, seedEffect, if_pos h₂]
  exact { seedGenerator_sameGenerator hv hs with }

/-- Settles O57: both SEEDs are accepted or refused together, and what an accepted one leaves determines the output. -/
theorem seedReplacesGenerator : Obligations.SeedReplacesGenerator := by
  intro s₁ s₂ t₁ t₂ hv hs hl he₁ he₂ hb₁ hb₂ hx₁ hx₂ ht
  rw [exec_seed_accepted he₁ hb₁] at hx₁
  rw [exec_seed_accepted he₂ hb₂] at hx₂
  cases hx₁
  cases hx₂
  have hok₁ := (seedEffect_noError_iff he₁).mp ht
  have hok₂ := (seedLengthOk_congr hv hl).symm.trans hok₁
  have hsame := seedEffect_sameGenerator hv hs hok₁ hok₂
  have hvar : (seedEffect s₁.engine).variant = s₁.engine.variant := by
    rw [seedEffect, if_pos hok₁, seedGenerator_keeps]
  exact ⟨(seedEffect_noError_iff he₂).mpr hok₂, fun h => hsame.legacy (by rwa [hvar]),
    fun h => hsame.drbg (by rwa [hvar]), hsame.generate_eq⟩

end Sys2Proof.Machine
end

section
/-! PROOFS. The decoder admits exactly the 32-bit accesses at a multiple of 4 inside the window, and what it rejects has
no step (20_memory.md R60, R66). -/

namespace Sys2Proof.Machine

@[simp] theorem error_isOk (r : DecodeError) : (Except.error r : Except DecodeError Instr).isOk = false := rfl

/-- The sixteen register slots of the window, and no other offset, can be read (R60, R66). -/
theorem decodeRead_isOk (offset : Nat) :
    (decodeRead offset).isOk = (offset % 4 == 0 && decide (offset < 64)) := by
  unfold decodeRead
  split
  case h_17 =>
    simp only [imp_false] at *
    have hout : ¬(offset % 4 = 0 ∧ offset < 64) := by omega
    simpa using hout
  all_goals rfl

/-- The sixteen register slots of the window, and no other offset, can be written (R60, R66). -/
theorem decodeWrite_isOk (offset : Nat) (value : Word) :
    (decodeWrite offset value).isOk = (offset % 4 == 0 && decide (offset < 64)) := by
  unfold decodeWrite
  split
  case h_17 =>
    simp only [imp_false] at *
    have hout : ¬(offset % 4 = 0 ∧ offset < 64) := by omega
    simpa using hout
  all_goals rfl

/-- The decoder accepts the admitted host actions and rejects the others (R66). -/
theorem decodeAction_isOk (a : BusAction) : (decodeAction a).isOk = admitted a := by
  rcases a with ⟨width, offset⟩ | ⟨width, offset, value⟩ | _
  case read =>
    by_cases hw : width = 4
    · simp [decodeAction, admitted, hw, decodeRead_isOk]
    · simp [decodeAction, admitted, hw]
  case write =>
    by_cases hw : width = 4
    · simp [decodeAction, admitted, hw, decodeWrite_isOk]
    · simp [decodeAction, admitted, hw]
  case reset => rfl

/-- A rejected access has no step: the host's turn is refused under the rejection's name (R66). -/
theorem stepAt_host_rejected {s : State} {a : BusAction} {rest : List Turn} {r : DecodeError} (depth : Nat)
    (hs : s.agenda = .host a :: rest) (ha : decodeAction a = .error r) :
    stepAt depth s = .refused (refusalOf r) := by
  simp [stepAt, hs, takeTurn, ha]

/-- Settles O32: a decoded access executes and every instruction completes; a rejected one is refused. -/
theorem onlyAdmittedAccessesHaveSteps : Obligations.OnlyAdmittedAccessesHaveSteps := by
  intro s a rest hs
  rw [← decodeAction_isOk a]
  rcases ha : decodeAction a with r | i
  case error => exact ⟨nofun, fun _ => ⟨_, stepAt_host_rejected _ hs ha⟩⟩
  case ok =>
    obtain ⟨t, ht⟩ := exec_completes i { s with agenda := rest }
    exact ⟨fun _ => ⟨t, (stepAt_host _ hs ha).trans ht⟩, nofun⟩

end Sys2Proof.Machine
end

section
/-! PROOFS. Command words and the rows they select: a word is its opcode and its operand, the decoder keeps both, and
what a row demands of them (30_encoding.md R90 to R111). -/

namespace Sys2Proof.Machine

/-! ### Words and command fields -/

/-- A word is a command word exactly of its own two fields (R90). -/
theorem eq_commandWord_iff (w : Word) (op : BitVec 4) (a : BitVec 28) :
    w = commandWord op a ↔ opcodeField w = op ∧ operandField w = a := by
  constructor
  · rintro rfl
    exact ⟨opcodeField_commandWord op a, operandField_commandWord op a⟩
  · rintro ⟨rfl, rfl⟩
    exact (commandWord_fields w).symm

/-- A command's row is encoded as its command word (R96). -/
theorem encodeCommand_decodeFields (op : BitVec 4) (a : BitVec 28) :
    encodeCommand (decodeFields op a) = some (commandWord op a) := by
  simp [encodeCommand, encode_decodeFields]

/-- Every word is the word of the command it decodes to (R90, R91). -/
theorem encodeCommand_decodeCommand (w : Word) : encodeCommand (decodeCommand w) = some w := by
  rw [decodeCommand, encodeCommand_decodeFields, commandWord_fields]

/-- One word alone decodes to a given command with given operand bits (R91). -/
theorem decodeCommand_eq_iff (w : Word) (op : BitVec 4) (a : BitVec 28) :
    decodeCommand w = decodeFields op a ↔ w = commandWord op a := by
  constructor
  · intro h
    have hw := encodeCommand_decodeCommand w
    rw [h, encodeCommand_decodeFields] at hw
    exact (Option.some.inj hw).symm
  · rintro rfl
    exact decodeCommand_commandWord op a

/-- A bus operation or RESET: no command word, decoded from the host action it encodes to, and with no operand that
could be illegal (R97). -/
structure IsBusOperation (i : Instr) : Prop where
  noCommandWord : (encode i).1 ≠ 32
  decodes : decodeAction (actionOf i) = .ok i
  wellFormed : i.wellFormed = true

/-- A read takes 8 bits, which spell its offset (notes/assumptions/7.md). -/
theorem isBusOperation_of_read {i : Instr} {offset : Nat} (he : encode i = readBits offset)
    (hd : decodeAction (actionOfTableWord 8 offset) = .ok i) (hw : i.wellFormed = true) : IsBusOperation i :=
  ⟨by simp [he, readBits], by rw [actionOf, he]; exact hd, hw⟩

/-- A write takes 40 bits, which spell its offset and its value (notes/assumptions/7.md). -/
theorem isBusOperation_of_write {i : Instr} {offset : Nat} {v : Word} (he : encode i = writeBits offset v)
    (ho : offset < 64) (hd : decodeWrite offset v = .ok i) (hw : i.wellFormed = true) : IsBusOperation i :=
  ⟨by simp [he, writeBits], by rw [actionOf, he, actionOf_writeBits _ _ ho]; exact hd, hw⟩

/-- Every instruction is a command, reserved opcodes included, or a bus operation (R96, R97). -/
theorem command_or_busOperation (i : Instr) : (∃ op a, i = decodeFields op a) ∨ IsBusOperation i := by
  cases i
  case nop a => exact .inl ⟨0x0, a, rfl⟩
  case select v r => exact .inl ⟨0x1, r ++ v, (decodeFields_select v r).symm⟩
  case seedClear a => exact .inl ⟨0x2, a, rfl⟩
  case seedByte b r => exact .inl ⟨0x3, r ++ b, (decodeFields_seedByte b r).symm⟩
  case seed a => exact .inl ⟨0x4, a, rfl⟩
  case produce n r => exact .inl ⟨0x5, r ++ n, (decodeFields_produce n r).symm⟩
  case discard a => exact .inl ⟨0x6, a, rfl⟩
  case reserved7 a => exact .inl ⟨0x7, a, rfl⟩
  case reserved8 a => exact .inl ⟨0x8, a, rfl⟩
  case reserved9 a => exact .inl ⟨0x9, a, rfl⟩
  case reservedA a => exact .inl ⟨0xA, a, rfl⟩
  case reservedB a => exact .inl ⟨0xB, a, rfl⟩
  case reservedC a => exact .inl ⟨0xC, a, rfl⟩
  case reservedD a => exact .inl ⟨0xD, a, rfl⟩
  case clearErr a => exact .inl ⟨0xE, a, rfl⟩
  case softReset a => exact .inl ⟨0xF, a, rfl⟩
  case reset => exact .inr ⟨by decide, rfl, rfl⟩
  case wrCmd | wrId | wrStatus | wrOut | wrOutcnt | wrSeedlen | wrRemain | wrReserved1C | wrReserved20 | wrReserved24 |
      wrReserved28 | wrReserved2C | wrReserved30 | wrReserved34 | wrReserved38 | wrReserved3C =>
    exact .inr (isBusOperation_of_write rfl (by decide) rfl rfl)
  all_goals exact .inr (isBusOperation_of_read rfl rfl rfl)

/-- Settles O4: a bus operation has no command word, and a command and its word determine each other. -/
theorem commandWordsRoundTrip : Obligations.CommandWordsRoundTrip := by
  refine ⟨fun i w h => ?_, encodeCommand_decodeCommand⟩
  rcases command_or_busOperation i with ⟨op, a, rfl⟩ | hbus
  · rw [encodeCommand_decodeFields] at h
    exact (decodeCommand_eq_iff w op a).mpr (Option.some.inj h).symm
  · rw [encodeCommand, if_neg hbus.noCommandWord] at h
    cases h

/-- Settles O5: a command's bits are its command word, any other instruction's spell its host action. -/
theorem tableWordsRoundTrip : Obligations.TableWordsRoundTrip := by
  intro i
  rcases command_or_busOperation i with ⟨op, a, rfl⟩ | hbus
  · simp [encode_decodeFields, decodeTableWord, decodeCommand_commandWord]
  · have hdecodes := hbus.decodes
    rw [actionOf] at hdecodes
    rw [decodeTableWord, if_neg hbus.noCommandWord, hdecodes]
    rfl

/-! ### Match and mask -/

/-- The bits of the high part are 0 exactly in the values of the low part alone. -/
theorem and_highMask_eq_zero_iff {n m : Nat} (a : BitVec (m + n)) :
    a &&& (BitVec.allOnes m ++ 0#n) = 0#m ++ 0#n ↔ ∃ lo : BitVec n, a = 0#m ++ lo := by
  constructor
  · intro h
    rw [← append_of_parts a, BitVec.and_append, BitVec.and_allOnes, BitVec.and_zero, BitVec.append_left_inj] at h
    exact ⟨a.extractLsb' 0 n, by rw [← h, append_of_parts]⟩
  · rintro ⟨lo, rfl⟩
    rw [BitVec.and_append, BitVec.and_allOnes, BitVec.and_zero]

/-- A mask that holds the whole opcode selects an opcode with the masked operand bits 0 (R96). -/
theorem rowMatch_iff (w : Word) (op : BitVec 4) (mask : BitVec 28) :
    w &&& commandWord 0xF mask = commandWord op 0 ↔ ∃ a, decodeCommand w = decodeFields op a ∧ a &&& mask = 0 := by
  have hmasked : w &&& commandWord 0xF mask = commandWord (opcodeField w) (operandField w &&& mask) := by
    conv_lhs => rw [← commandWord_fields w]
    rw [commandWord, commandWord, BitVec.and_append, show (0xF : BitVec 4) = BitVec.allOnes 4 from rfl,
      BitVec.and_allOnes, commandWord]
  simp only [hmasked, decodeCommand_eq_iff, eq_commandWord_iff, opcodeField_commandWord, operandField_commandWord]
  simp

/-- A row that fixes the opcode only (R99). -/
theorem rowMatch_opcode_iff (w : Word) (op : BitVec 4) :
    w &&& 0xF0000000 = commandWord op 0 ↔ ∃ a, decodeCommand w = decodeFields op a := by
  refine (rowMatch_iff w op 0).trans (exists_congr fun a => and_iff_left ?_)
  exact BitVec.and_zero

/-- A row of format Z fixes the whole word (R92). -/
theorem rowMatch_word_iff (w : Word) (op : BitVec 4) :
    w &&& 0xFFFFFFFF = commandWord op 0 ↔ decodeCommand w = decodeFields op 0 := by
  rw [decodeCommand_eq_iff, show (0xFFFFFFFF : Word) = BitVec.allOnes 32 from rfl, BitVec.and_allOnes]

/-- A row of format VAR, B8 or N24 selects the operands `field x`, those whose masked bits are 0 (R92). -/
theorem rowMatch_field_iff {n : Nat} (w : Word) {op : BitVec 4} {mask : BitVec 28} (field : BitVec n → BitVec 28)
    (hmask : ∀ a : BitVec 28, a &&& mask = 0 ↔ ∃ x, a = field x) :
    w &&& commandWord 0xF mask = commandWord op 0 ↔ ∃ x, decodeCommand w = decodeFields op (field x) := by
  rw [rowMatch_iff]
  constructor
  · rintro ⟨a, hw, ha⟩
    obtain ⟨x, rfl⟩ := (hmask a).mp ha
    exact ⟨x, hw⟩
  · rintro ⟨x, hw⟩
    exact ⟨field x, hw, (hmask _).mpr ⟨x, rfl⟩⟩

/-- The row of SEED_BYTE (R96). -/
theorem rowMatch_seedByte_iff (w : Word) :
    w &&& 0xFFFFFF00 = 0x30000000 ↔ ∃ b, decodeCommand w = .seedByte b 0 := by
  simp only [← decodeFields_seedByte]
  exact rowMatch_field_iff (op := 3) w (fun b : Byte => 0#20 ++ b) (and_highMask_eq_zero_iff (n := 8) (m := 20))

/-- The row of PRODUCE (R96). -/
theorem rowMatch_produce_iff (w : Word) :
    w &&& 0xFF000000 = 0x50000000 ↔ ∃ n, decodeCommand w = .produce n 0 := by
  simp only [← decodeFields_produce]
  exact rowMatch_field_iff (op := 5) w (fun n : BitVec 24 => 0#4 ++ n) (and_highMask_eq_zero_iff (n := 24) (m := 4))

/-- The match and mask of SELECT's row, any of the eight codes (R96). -/
theorem rowMatch_select_iff (w : Word) :
    w &&& 0xFFFFFFF8 = 0x10000000 ↔ ∃ v, decodeCommand w = .select v 0 := by
  simp only [← decodeFields_select]
  exact rowMatch_field_iff (op := 1) w (fun v : BitVec 3 => 0#25 ++ v) (and_highMask_eq_zero_iff (n := 3) (m := 25))

/-- SELECT's code is `w[2:0]` (R93). -/
theorem code_of_decodeCommand_select {w : Word} {v : BitVec 3} {r : BitVec 25} (h : decodeCommand w = .select v r) :
    w.extractLsb' 0 3 = v := by
  rw [← decodeFields_select, decodeCommand_eq_iff] at h
  subst h
  have hlow : (commandWord 1 (r ++ v)).extractLsb' 0 3 = (operandField (commandWord 1 (r ++ v))).extractLsb' 0 3 := by
    simp only [operandField]
    exact (BitVec.extractLsb'_extractLsb'_of_le (by decide)).symm
  rw [hlow, operandField_commandWord, low_of_append]

/-- SELECT's row with its value condition selects the five variants (R95, R96). -/
theorem rowMatch_variant_iff (w : Word) :
    w &&& 0xFFFFFFF8 = 0x10000000 ∧ (w.extractLsb' 0 3).toNat ≤ 4 ↔
      ∃ g : Variant, decodeCommand w = .select g.code 0 := by
  rw [rowMatch_select_iff]
  constructor
  · rintro ⟨⟨v, hw⟩, hv⟩
    rw [code_of_decodeCommand_select hw] at hv
    obtain ⟨g, rfl⟩ := Variant.code_of_le v hv
    exact ⟨g, hw⟩
  · rintro ⟨g, hw⟩
    exact ⟨⟨g.code, hw⟩, by rw [code_of_decodeCommand_select hw]; exact g.code_le⟩

/-- Settles O7: each row is a match lemma of its format, at the row's opcode. -/
theorem opcodeMapSelectsRows : Obligations.OpcodeMapSelectsRows :=
  fun w => ⟨rowMatch_word_iff w 0x0, rowMatch_variant_iff w, rowMatch_word_iff w 0x2, rowMatch_seedByte_iff w,
    rowMatch_word_iff w 0x4, rowMatch_produce_iff w, rowMatch_word_iff w 0x6, rowMatch_opcode_iff w 0x7,
    rowMatch_opcode_iff w 0x8, rowMatch_opcode_iff w 0x9, rowMatch_opcode_iff w 0xA, rowMatch_opcode_iff w 0xB,
    rowMatch_opcode_iff w 0xC, rowMatch_opcode_iff w 0xD, rowMatch_word_iff w 0xE, rowMatch_word_iff w 0xF⟩

/-! ### Legal operands -/

/-- The opcodes that are not reserved (R96). -/
theorem definedOpcode_cases {op : BitVec 4} (h : definedOpcode op = true) :
    op = 0x0 ∨ op = 0x1 ∨ op = 0x2 ∨ op = 0x3 ∨ op = 0x4 ∨ op = 0x5 ∨ op = 0x6 ∨ op = 0xE ∨ op = 0xF := by
  revert op
  decide

/-- A command is well formed when its opcode is reserved or its operand is legal (R92, R99). -/
theorem wellFormed_decodeFields (op : BitVec 4) (a : BitVec 28) :
    (decodeFields op a).wellFormed = (!definedOpcode op || operandLegal op a) := by
  rcases opcode_cases op with h | h | h | h | h | h | h | h | h | h | h | h | h | h | h | h <;> subst h <;> rfl

/-- The opcodes without a field of their own have format Z (R92). -/
theorem operandLegal_formatZ {op : BitVec 4} (a : BitVec 28) (h1 : op ≠ 1) (h3 : op ≠ 3) (h5 : op ≠ 5) :
    operandLegal op a = (a == 0) := by
  unfold operandLegal
  split
  next h => exact absurd (BitVec.eq_of_toNat_eq h) h1
  next h => exact absurd (BitVec.eq_of_toNat_eq h) h3
  next h => exact absurd (BitVec.eq_of_toNat_eq h) h5
  next => rfl

theorem operandLegal_select_iff (a : BitVec 28) : operandLegal 1 a = true ↔ a.toNat ≤ 4 := by
  have hrest := high_bits_zero (n := 3) (m := 25) a
  have hcode : (a.extractLsb' 0 3).toNat = a.toNat % 2 ^ 3 := by simp [BitVec.extractLsb'_toNat]
  change (a.extractLsb' 3 25 == 0 && decide ((a.extractLsb' 0 3).toNat ≤ 4)) = true ↔ _
  rw [Bool.and_eq_true, beq_iff_eq, ← hrest, decide_eq_true_eq, hcode]
  omega

theorem operandLegal_seedByte_iff (a : BitVec 28) : operandLegal 3 a = true ↔ a.toNat < 256 := by
  change (a.extractLsb' 8 20 == 0) = true ↔ _
  rw [beq_iff_eq, ← high_bits_zero (n := 8) (m := 20) a]
  omega

theorem operandLegal_produce_iff (a : BitVec 28) : operandLegal 5 a = true ↔ a.toNat < 2 ^ 24 := by
  change (a.extractLsb' 24 4 == 0) = true ↔ _
  rw [beq_iff_eq, ← high_bits_zero (n := 24) (m := 4) a]
  omega

/-- Settles O8, format by format; a defined opcode's command is well formed when its operand is legal. -/
theorem operandLegalByFormat : Obligations.OperandLegalByFormat := by
  intro op a hop
  refine ⟨?_, by rw [decodeCommand_commandWord, wellFormed_decodeFields, hop, Bool.not_true, Bool.false_or]⟩
  split_ifs with h1 h3 h5
  · rw [h1, operandLegal_select_iff]
  · rw [h3, operandLegal_seedByte_iff]
  · rw [h5, operandLegal_produce_iff]
  · rw [operandLegal_formatZ a h1 h3 h5, beq_iff_eq, ← BitVec.toNat_inj]
    rfl

/-! ### The assembler -/

/-- A command with a legal operand assembles to its word (R111). -/
theorem assemble_decodeFields {op : BitVec 4} {a : BitVec 28} (hop : definedOpcode op = true)
    (hl : operandLegal op a = true) : assemble (decodeFields op a) = some (commandWord op a) := by
  have hwf : (decodeFields op a).wellFormed = true := by rw [wellFormed_decodeFields, hl, Bool.or_true]
  have hword : (if (decodeFields op a).wellFormed then encodeCommand (decodeFields op a) else none) =
      some (commandWord op a) := by rw [if_pos hwf, encodeCommand_decodeFields]
  rcases definedOpcode_cases hop with h | h | h | h | h | h | h | h | h <;> subst h <;> exact hword

/-- The assembler refuses what is not well formed (R111). -/
theorem assemble_of_not_wellFormed {i : Instr} (h : i.wellFormed = false) : assemble i = none := by
  unfold assemble
  split
  case h_8 => rw [h, if_neg Bool.false_ne_true]
  all_goals rfl

/-- A word with a short operand is the opcode's bits over the operand's (R90, R93). -/
theorem commandWord_zero_append {n m : Nat} (op : BitVec 4) (v : BitVec n) (h : m + n = 28) :
    commandWord op ((0#m ++ v).cast h) = commandWord op 0 ||| v.setWidth 32 := by
  apply BitVec.eq_of_getLsbD_eq
  intro k hk
  simp only [commandWord, BitVec.getLsbD_or, BitVec.getLsbD_setWidth]
  rw [BitVec.getLsbD_append, BitVec.getLsbD_append, BitVec.getLsbD_cast, BitVec.getLsbD_append]
  by_cases hv : k < n
  · simp [hv, hk, show k < 28 by omega]
  · simp [hv, BitVec.getLsbD_of_ge v k (Nat.le_of_not_lt hv)]

theorem assemble_select (g : Variant) : assemble (.select g.code 0) = some (0x10000000 ||| g.code.setWidth 32) := by
  have h := assemble_decodeFields (op := 1) (a := 0#25 ++ g.code) rfl
    ((operandLegal_select g.code 0).trans (by simp [g.code_le]))
  rw [decodeFields_select] at h
  exact h.trans (congrArg some (commandWord_zero_append 1 g.code (m := 25) rfl))

theorem assemble_seedByte (b : Byte) : assemble (.seedByte b 0) = some (0x30000000 ||| b.setWidth 32) := by
  have h := assemble_decodeFields (op := 3) (a := 0#20 ++ b) rfl (operandLegal_seedByte b 0)
  rw [decodeFields_seedByte] at h
  exact h.trans (congrArg some (commandWord_zero_append 3 b (m := 20) rfl))

theorem assemble_produce (n : BitVec 24) : assemble (.produce n 0) = some (0x50000000 ||| n.setWidth 32) := by
  have h := assemble_decodeFields (op := 5) (a := 0#4 ++ n) rfl (operandLegal_produce n 0)
  rw [decodeFields_produce] at h
  exact h.trans (congrArg some (commandWord_zero_append 5 n (m := 4) rfl))

/-- Settles O9: SELECT, SEED_BYTE and PRODUCE for every value in range, the others at operand 0. -/
theorem assemblerWords : Obligations.AssemblerWords :=
  ⟨assemble_decodeFields (op := 0x0) rfl rfl, assemble_select, assemble_select .legacy,
    assemble_select .legacyDrop, assemble_select .ctr128, assemble_select .ctr192, assemble_select .ctr256,
    assemble_decodeFields (op := 0x2) rfl rfl, assemble_seedByte, assemble_decodeFields (op := 0x4) rfl rfl,
    assemble_produce, assemble_decodeFields (op := 0x6) rfl rfl, assemble_decodeFields (op := 0xE) rfl rfl,
    assemble_decodeFields (op := 0xF) rfl rfl, fun _ => assemble_of_not_wellFormed⟩

end Sys2Proof.Machine
end

section
/-! PROOFS. What writing a command word does: its command, or the error that a bad opcode or operand records
(30_encoding.md R91, R98 to R100, 44_commands_control.md R225). -/

namespace Sys2Proof.Machine

/-- Settles O11: WR_CMD accepts the word's fields, and so does the command they decode to. -/
theorem wrCmdRunsDecodedCommand : Obligations.WrCmdRunsDecodedCommand :=
  fun w s => (exec_commandOf (.wrCmd w) s).symm

/-- Settles O31: 32 bits are written to CMD, any others are the access they decode to. -/
theorem stepRunsTableWord : Obligations.StepRunsTableWord := by
  intro s nbits w i h
  by_cases hbits : nbits = 32
  · obtain rfl : decodeCommand (BitVec.ofNat 32 w) = i := by simpa [decodeTableWord, hbits] using h
    have hwrite : (s.withFetchWord nbits w).agenda = .host (.write 4 0x04 (BitVec.ofNat 32 w)) :: s.agenda := by
      simp [State.withFetchWord, actionOfTableWord, hbits]
    exact (stepAt_host _ hwrite rfl).trans (wrCmdRunsDecodedCommand _ s)
  · have hdecodes : decodeAction (actionOfTableWord nbits w) = .ok i := by
      rw [decodeTableWord, if_neg hbits] at h
      rcases ha : decodeAction (actionOfTableWord nbits w) with r | j <;> rw [ha] at h <;> cases h
      rfl
    exact stepAt_host _ rfl hdecodes

/-! ### Words that record an error -/

/-- A reserved opcode (R99, R225 step 1). -/
theorem acceptFields_reserved {op : BitVec 4} (a : BitVec 28) (e : Engine) (hop : definedOpcode op = false) :
    acceptFields op a e = recordError .illegalCmd e := by
  simp [acceptFields, hop, raise_eq_recordError]

/-- An operand that breaks its opcode's format (R100, R225 step 2). -/
theorem acceptFields_illegalOperand {op : BitVec 4} {a : BitVec 28} (e : Engine) (hop : definedOpcode op = true)
    (hl : operandLegal op a = false) : acceptFields op a e = recordError .illegalOperand e := by
  simp [acceptFields, hop, hl, raise_eq_recordError]

theorem exec_reserved {op : BitVec 4} (a : BitVec 28) (s : State) (hop : definedOpcode op = false) :
    exec (decodeFields op a) s = .next (s.withEngine (recordError .illegalCmd s.engine)) := by
  rw [exec_decodeFields, acceptFields_reserved a _ hop]

/-- Only a command with a defined opcode and an illegal operand is not well formed (R92). -/
theorem command_of_not_wellFormed {i : Instr} (h : i.wellFormed = false) :
    ∃ op a, i = decodeFields op a ∧ definedOpcode op = true ∧ operandLegal op a = false := by
  rcases command_or_busOperation i with ⟨op, a, rfl⟩ | hbus
  · rw [wellFormed_decodeFields, Bool.or_eq_false_iff, Bool.not_eq_false'] at h
    exact ⟨op, a, rfl, h⟩
  · rw [hbus.wellFormed] at h
    cases h

/-- Settles O12: the seven opcodes that are not defined. -/
theorem reservedOpcodesRecordIllegalCmd : Obligations.ReservedOpcodesRecordIllegalCmd :=
  fun a s => ⟨exec_reserved (op := 0x7) a s rfl, exec_reserved (op := 0x8) a s rfl, exec_reserved (op := 0x9) a s rfl,
    exec_reserved (op := 0xA) a s rfl, exec_reserved (op := 0xB) a s rfl, exec_reserved (op := 0xC) a s rfl,
    exec_reserved (op := 0xD) a s rfl⟩

/-- Settles O13: what is not well formed stops at acceptance's check of the operand. -/
theorem illegalOperandIsRecorded : Obligations.IllegalOperandIsRecorded := by
  intro i s h
  obtain ⟨op, a, rfl, hop, hl⟩ := command_of_not_wellFormed h
  rw [exec_decodeFields, acceptFields_illegalOperand _ hop hl]

/-- Settles O6: each word is the command word of its fields; the bad ones fail a check of acceptance. -/
theorem exampleWordsDecode : Obligations.ExampleWordsDecode := by
  refine ⟨rfl, rfl, rfl, rfl, rfl, ⟨1, rfl, by decide⟩, rfl, ⟨1, rfl, by decide⟩, rfl, fun w hw => ?_, rfl,
    acceptFields_reserved _ _ rfl⟩
  rcases hw with rfl | rfl | rfl | rfl <;> exact acceptFields_illegalOperand _ rfl rfl

end Sys2Proof.Machine
end

section
/-! PROOFS. The legacy keystream: one step, requests in pieces, the drop and the key schedule
(40_legacy_keystream.md R120 to R127). -/

namespace Sys2Proof.Machine

/-! ### Table reads -/

/-- Two entries are exchanged and all others stay (R13). -/
theorem tableGet_tableSwap (t : Table) (a b k : Byte) :
    tableGet (tableSwap t a b) k = if k = a then tableGet t b else if k = b then tableGet t a else tableGet t k := by
  simp only [tableGet, tableSwap, Vector.getElem_swap, BitVec.toNat_inj]

theorem tableGet_identityTable (k : Byte) : tableGet identityTable k = k := by
  simp [tableGet, identityTable, getElem_arrayOf, List.getD_eq_getElem?_getD, List.getElem?_range k.isLt]

/-- An entry is read at its number. -/
theorem tableGet_ofNat_toNat (t : Table) (k : Byte) : tableGet t (BitVec.ofNat 8 k.toNat) = tableGet t k := by
  rw [BitVec.ofNat_toNat, BitVec.setWidth_eq]

/-! ### One step (R122) -/

/-- Settles O46: the byte at index `S[I] + S[J]` is read in the table the exchange leaves. -/
theorem legacyStepFollowsRule : Obligations.LegacyStepFollowsRule :=
  fun st => ⟨BitVec.toNat_add st.i 1, BitVec.toNat_add st.j _, tableGet_tableSwap st.s _ _,
    _, BitVec.toNat_add _ _, rfl⟩

/-- Settles O48: the key schedule and a step only swap. -/
theorem legacyTableStaysPermutation : Obligations.LegacyTableStaysPermutation :=
  ⟨rc4Seed_isPermutation, fun _ => rc4Step_isPermutation, fun _ => tableGet_mem _ _⟩

/-! ### Successive steps (R123 to R125) -/

theorem rc4Produce_state (n : Nat) (st : LegacyState) : (rc4Produce n st).2 = legacyAfter n st := by
  induction n generalizing st with
  | zero => rfl
  | succ n ih => exact ih _

theorem rc4Discard_eq_legacyAfter (n : Nat) (st : LegacyState) : rc4Discard n st = legacyAfter n st := by
  induction n generalizing st with
  | zero => rfl
  | succ n ih => exact ih _

theorem rc4Produce_getD {m n : Nat} (h : m < n) (st : LegacyState) :
    (rc4Produce n st).1.getD m 0 = (rc4Step (legacyAfter m st)).1 := by
  induction n generalizing m st with
  | zero => exact absurd h m.not_lt_zero
  | succ n ih =>
    cases m with
    | zero => rfl
    | succ m => exact ih (Nat.lt_of_succ_lt_succ h) _

/-- A request may be split (R125). -/
theorem rc4Produce_add (a b : Nat) (st : LegacyState) :
    rc4Produce (a + b) st =
      ((rc4Produce a st).1 ++ (rc4Produce b (rc4Produce a st).2).1, (rc4Produce b (rc4Produce a st).2).2) := by
  induction a generalizing st with
  | zero => simp [rc4Produce]
  | succ a ih => simp [Nat.succ_add, rc4Produce, ih]

theorem generate_of_legacy {e : Engine} (hv : e.variant.keyLen? = none) (n : Nat) :
    generate n e = ((rc4Produce n e.legacy).1, { e with legacy := (rc4Produce n e.legacy).2 }) := by
  simp only [generate, hv]

/-- Settles O47: by induction on the count; a legacy variant emits what the procedure returns. -/
theorem legacyProduceRunsStepsAndChunks : Obligations.LegacyProduceRunsStepsAndChunks := by
  refine ⟨fun n st => ⟨rc4Produce_length n st, fun m hm => rc4Produce_getD hm st, rc4Produce_state n st⟩,
    fun a b st => ?_, fun a b e hv => ?_⟩
  · simp only [rc4Produce_add, and_self]
  · have hv' : (generate a e).2.variant.keyLen? = none := by rwa [generate_of_legacy hv]
    rw [generate_of_legacy hv', generate_of_legacy hv, generate_of_legacy hv, rc4Produce_add]
    exact ⟨rfl, rfl⟩

/-- Every step moves `I` by one (R122). -/
theorem legacyAfter_i (n : Nat) (st : LegacyState) : (legacyAfter n st).i = st.i + BitVec.ofNat 8 n := by
  induction n generalizing st with
  | zero => exact (BitVec.add_zero _).symm
  | succ n ih =>
    calc (legacyAfter n (rc4Step st).2).i
      _ = st.i + 1 + BitVec.ofNat 8 n := ih _
      _ = st.i + BitVec.ofNat 8 (n + 1) := by rw [BitVec.ofNat_add, BitVec.add_assoc, BitVec.add_comm 1]; rfl

/-- Settles O50: the steps of a drop are those of a request, and 3072 is a multiple of 256. -/
theorem legacyDropDiscards : Obligations.LegacyDropDiscards := by
  refine ⟨fun m st => ⟨?_, ?_⟩, fun key => ?_⟩
  · rw [rc4Discard_eq_legacyAfter, rc4Produce_state]
  · rw [rc4Discard_eq_legacyAfter, legacyAfter_i, BitVec.toNat_add, BitVec.toNat_ofNat, Nat.add_mod_mod]
  · rw [rc4Discard_eq_legacyAfter, legacyAfter_i]
    rfl

/-! ### The key schedule (R121, R127) -/

/-- The local `j` and the table before the loop's pass for index `i` (R121). -/
def rc4ScheduleAt (key : List Byte) (i : Nat) : Byte × Table :=
  (List.range i).foldl (rc4ScheduleStep key) (0, identityTable)

theorem rc4Seed_eq (key : List Byte) : rc4Seed key = { s := (rc4ScheduleAt key 256).2, i := 0, j := 0 } := rfl

theorem rc4ScheduleAt_succ (key : List Byte) (i : Nat) :
    rc4ScheduleAt key (i + 1) = rc4ScheduleStep key (rc4ScheduleAt key i) i := by
  simp [rc4ScheduleAt, List.range_succ]

/-- The schedule's `j` before pass `i`, as a number. -/
def scheduleCursor (key : List Byte) (i : Nat) : Nat := (rc4ScheduleAt key i).1.toNat

/-- Entry `k` of the schedule's table before pass `i`, as a number. -/
def scheduleEntry (key : List Byte) (i k : Nat) : Nat := (tableGet (rc4ScheduleAt key i).2 (BitVec.ofNat 8 k)).toNat

theorem scheduleEntry_zero (key : List Byte) {k : Nat} (hk : k < 256) : scheduleEntry key 0 k = k :=
  (congrArg BitVec.toNat (tableGet_identityTable _)).trans (Nat.mod_eq_of_lt hk)

theorem scheduleCursor_succ (key : List Byte) (i : Nat) :
    scheduleCursor key (i + 1) =
      (scheduleCursor key i + scheduleEntry key i i + (key.getD (i % key.length) 0).toNat) % 256 := by
  simp only [scheduleCursor, scheduleEntry, rc4ScheduleAt_succ, rc4ScheduleStep, BitVec.toNat_add, Nat.reducePow,
    Nat.mod_add_mod]

/-- The pass for index `i` exchanges entry `i` and the entry at its new `j`. -/
theorem scheduleEntry_succ (key : List Byte) {i k : Nat} (hi : i < 256) (hk : k < 256) :
    scheduleEntry key (i + 1) k =
      if k = i then scheduleEntry key i (scheduleCursor key (i + 1))
      else if k = scheduleCursor key (i + 1) then scheduleEntry key i i else scheduleEntry key i k := by
  have htable : (rc4ScheduleAt key (i + 1)).2 =
      tableSwap (rc4ScheduleAt key i).2 (BitVec.ofNat 8 i) (rc4ScheduleAt key (i + 1)).1 := by
    rw [rc4ScheduleAt_succ]
    rfl
  have hkj (j : Byte) : BitVec.ofNat 8 k = j ↔ k = j.toNat := by
    rw [← BitVec.toNat_inj, BitVec.toNat_ofNat, Nat.mod_eq_of_lt hk]
  have hki : BitVec.ofNat 8 k = BitVec.ofNat 8 i ↔ k = i := by
    rw [hkj, BitVec.toNat_ofNat, Nat.mod_eq_of_lt hi]
  simp only [scheduleEntry, scheduleCursor, htable, tableGet_tableSwap, tableGet_ofNat_toNat,
    apply_ite BitVec.toNat]
  exact if_congr hki rfl (if_congr (hkj _) rfl rfl)

/-- The schedule reads key byte `i mod L` at pass `i` and nothing else of the key (R127). -/
theorem rc4Seed_congr {k1 k2 : List Byte}
    (h : ∀ i, i < 256 → k1.getD (i % k1.length) 0 = k2.getD (i % k2.length) 0) : rc4Seed k1 = rc4Seed k2 := by
  have hat : ∀ n, n ≤ 256 → rc4ScheduleAt k1 n = rc4ScheduleAt k2 n := by
    intro n hn
    induction n with
    | zero => rfl
    | succ n ih => simp only [rc4ScheduleAt_succ, rc4ScheduleStep, ih (by omega), h n hn]
  rw [rc4Seed_eq, rc4Seed_eq, hat 256 le_rfl]

/-- The table that R121's example gives for the key "Key". -/
theorem rc4Seed_key_entries :
    (rc4Seed [0x4B, 0x65, 0x79]).s.toList.take 16 =
      [0x4B, 0x33, 0x84, 0x9D, 0xC0, 0xC8, 0x1D, 0xA8, 0x4A, 0xF3, 0x83, 0xE4, 0x12, 0x70, 0x82, 0x90] := by
  decide +kernel

/-- A key of one byte repeated gives the state of the single byte (R127). -/
theorem rc4Seed_replicate (L : Nat) (hL : 0 < L) (b : Byte) : rc4Seed (List.replicate L b) = rc4Seed [b] :=
  rc4Seed_congr fun i _ => by simp [List.getD_eq_getElem?_getD, Nat.mod_lt i hL, Nat.mod_one]

/-- Settles O49: the loop's `j` and table as numbers, pass by pass; what the loop reads of the key fixes the state. -/
theorem legacyKeyScheduleAndPeriodicity : Obligations.LegacyKeyScheduleAndPeriodicity :=
  ⟨fun key _ _ => ⟨scheduleCursor key, scheduleEntry key, rfl, fun _ hk => scheduleEntry_zero key hk,
      fun i hi => ⟨scheduleCursor_succ key i, fun _ hk => scheduleEntry_succ key hi hk⟩,
      fun k => congrArg BitVec.toNat (tableGet_ofNat_toNat _ k).symm, rfl, rfl⟩,
    rc4Seed_key_entries, fun _ _ _ _ h => rc4Seed_congr h,
    fun h => absurd (List.length_replicate.symm.trans (congrArg List.length h)) (by decide),
    rc4Seed_replicate 256 (by omega) 0xAB⟩

end Sys2Proof.Machine
end

section
/-! PROOFS. The counter DRBG: the increment as arithmetic, the bytes of the cipher stream, and Update, Instantiate and
Generate in terms of them (41_counter_drbg.md R142 to R154). -/

namespace Sys2Proof.Machine

/-! ### Byte sequences, and the big-endian numbers they are (R11, R12) -/

theorem beNat_concat (bs : List Byte) (b : Byte) : beNat (bs ++ [b]) = beNat bs * 256 + b.toNat := by
  simp [beNat]

theorem beNat_lt (bs : List Byte) : beNat bs < 256 ^ bs.length := by
  induction bs using List.reverseRecOn with
  | nil => exact Nat.one_pos
  | append_singleton bs b ih =>
    rw [beNat_concat, List.length_append, List.length_singleton, Nat.pow_succ]
    omega

/-- A byte sequence is the big-endian encoding of its number. -/
theorem beBytes_beNat (bs : List Byte) : beBytes bs.length (beNat bs) = bs := by
  induction bs using List.reverseRecOn with
  | nil => rfl
  | append_singleton bs b ih =>
    have hdiv : (beNat bs * 256 + b.toNat) / 256 = beNat bs := by omega
    have hlow : BitVec.ofNat 8 (beNat bs * 256 + b.toNat) = b := by
      apply BitVec.eq_of_toNat_eq
      rw [BitVec.toNat_ofNat]
      omega
    rw [beNat_concat, List.length_append, List.length_singleton, beBytes, hdiv, hlow, ih]

theorem getD_zeros (n k : Nat) : (zeros n).getD k 0 = 0 := by
  by_cases h : k < n <;> simp [zeros, List.getD_eq_getElem?_getD, h]

/-! ### The increment (R143) -/

/-- One pass of the carry loop: a byte that wraps becomes 0 and the carry goes on, any other byte ends the loop. -/
theorem incFrom_succ {k : Nat} (hk : k < 16) (v : Block) :
    incFrom (k + 1) hk v =
      if v[k] + 1 = 0 then incFrom k (Nat.le_of_lt hk) (v.set k 0) else v.set k (v[k] + 1) := by
  simp only [incFrom, ne_eq, ite_not]
  split_ifs with hwrap
  · rw [hwrap]
  · rfl

/-- The carry from byte `k - 1` down leaves the bytes from `k` on. -/
theorem getElem_incFrom_of_le {k i : Nat} (hk : k ≤ 16) (hki : k ≤ i) (hi : i < 16) (v : Block) :
    (incFrom k hk v)[i] = v[i] := by
  induction k generalizing v with
  | zero => rfl
  | succ k ih =>
    rw [incFrom_succ]
    split_ifs
    · rw [ih _ (by omega), Vector.getElem_set_ne _ _ (by omega)]
    · exact Vector.getElem_set_ne _ _ (by omega)

/-- The number that the first `k` bytes of a block hold. -/
def prefixNat (v : Block) (k : Nat) : Nat := beNat (v.toList.take k)

theorem prefixNat_lt (v : Block) {k : Nat} (hk : k ≤ 16) : prefixNat v k < 256 ^ k := by
  simpa [prefixNat, hk] using beNat_lt (v.toList.take k)

theorem prefixNat_succ (v : Block) {k : Nat} (hk : k < 16) :
    prefixNat v (k + 1) = prefixNat v k * 256 + v[k].toNat := by
  rw [prefixNat, List.take_succ_eq_append_getElem (by simpa using hk), beNat_concat, Vector.getElem_toList]
  rfl

theorem prefixNat_set (v : Block) {k : Nat} (hk : k < 16) (b : Byte) : prefixNat (v.set k b) k = prefixNat v k := by
  simp [prefixNat, Vector.toList_set, List.take_set_of_le]

theorem prefixNat_sixteen (v : Block) : prefixNat v 16 = beNat v.toList := by
  rw [prefixNat, List.take_of_length_le (by simp)]

/-- The carry loop from byte `k - 1` down adds 1 to the number in the first `k` bytes. -/
theorem prefixNat_incFrom {k : Nat} (hk : k ≤ 16) (v : Block) :
    prefixNat (incFrom k hk v) k = (prefixNat v k + 1) % 256 ^ k := by
  induction k generalizing v with
  | zero => rw [Nat.pow_zero, Nat.mod_one]; rfl
  | succ k ih =>
    have hbyte : (v[k] + 1).toNat = (v[k].toNat + 1) % 256 := BitVec.toNat_add _ _
    rw [incFrom_succ, prefixNat_succ v hk, Nat.pow_succ]
    split_ifs with hwrap
    · have hlast : prefixNat v k * 256 + v[k].toNat + 1 = (prefixNat v k + 1) * 256 := by
        have hzero : (v[k] + 1).toNat = 0 := congrArg BitVec.toNat hwrap
        omega
      rw [hlast, Nat.mul_mod_mul_right, prefixNat_succ _ hk, ih, prefixNat_set, getElem_incFrom_of_le _ le_rfl,
        Vector.getElem_set_self]
      exact Nat.add_zero _
    · have hne : (v[k] + 1).toNat ≠ 0 := fun h => hwrap (BitVec.eq_of_toNat_eq h)
      have hlt := prefixNat_lt v (Nat.le_of_lt hk)
      rw [prefixNat_succ _ hk, prefixNat_set, Vector.getElem_set_self, Nat.mod_eq_of_lt] <;> omega

theorem beNat_inc (v : Block) : beNat (inc v).toList = (beNat v.toList + 1) % 2 ^ 128 := by
  rw [← prefixNat_sixteen, ← prefixNat_sixteen, inc, prefixNat_incFrom, show 256 ^ 16 = 2 ^ 128 from rfl]

/-- Settles O51: the carry loop's number, and a block is the encoding of its number. -/
theorem incrementAddsOne : Obligations.IncrementAddsOne := by
  intro v
  refine ⟨?_, beNat_inc v⟩
  rw [← beNat_inc]
  simpa using (beBytes_beNat (inc v).toList).symm

theorem beNat_incTimes (k : Nat) (v : Block) : beNat (incTimes k v).toList = (beNat v.toList + k) % 2 ^ 128 := by
  induction k generalizing v with
  | zero => exact (Nat.mod_eq_of_lt (by simpa [incTimes] using beNat_lt v.toList)).symm
  | succ k ih => rw [incTimes, ih, beNat_inc, Nat.mod_add_mod, Nat.add_assoc, Nat.add_comm 1]

/-- Settles O52: every round of the loop increments once. -/
theorem updateLoopCounts : Obligations.UpdateLoopCounts :=
  ⟨rfl, rfl, rfl, fun E K k v => by rw [cipherStream_snd, beNat_incTimes]⟩

/-! ### The bytes of the cipher stream (R64, R142) -/

/-- The stream after its first block is the stream from the next value on. -/
theorem streamByte_inc (E : Cipher) (K : List Byte) (v : Block) (m : Nat) :
    streamByte E K (inc v) m = streamByte E K v (16 + m) := by
  rw [streamByte, streamByte, Nat.add_mod_left, Nat.add_div_left m (by decide)]
  rfl

theorem toList_eq_map_streamByte (E : Cipher) (K : List Byte) (v : Block) :
    (E K (inc v)).toList = (List.range 16).map (streamByte E K v) := by
  refine List.ext_getElem (by simp) fun m hm _ => ?_
  have hm : m < 16 := by simpa using hm
  simp [streamByte, Nat.div_eq_of_lt hm, Nat.mod_eq_of_lt hm, incTimes, List.getD_eq_getElem?_getD, hm]

theorem cipherStream_fst (E : Cipher) (K : List Byte) (k : Nat) (v : Block) :
    (cipherStream E K k v).1 = (List.range (16 * k)).map (streamByte E K v) := by
  induction k generalizing v with
  | zero => rfl
  | succ k ih =>
    have hrest : streamByte E K (inc v) = streamByte E K v ∘ (16 + ·) := funext (streamByte_inc E K v)
    rw [Nat.mul_succ, Nat.add_comm (16 * k), List.range_add, List.map_append, List.map_map,
      ← toList_eq_map_streamByte, ← hrest, ← ih]
    rfl

/-- `blocksFor n` blocks hold the first `n` bytes of the stream (R146, R149). -/
theorem take_cipherStream (E : Cipher) (K : List Byte) (n : Nat) (v : Block) :
    (cipherStream E K (blocksFor n) v).1.take n = (List.range n).map (streamByte E K v) := by
  rw [cipherStream_fst, ← List.map_take, List.take_range, Nat.min_eq_left (blocksFor_bounds n).1]

/-! ### Update (R145) -/

/-- Byte `k` of the stream of `n` bytes XOR the provided data. -/
theorem getD_xor_stream (E : Cipher) (K : List Byte) (v : Block) {pd : List Byte} {n k : Nat} (hpd : pd.length = n)
    (hk : k < n) :
    (xorBytes ((List.range n).map (streamByte E K v)) pd).getD k 0 = streamByte E K v k ^^^ pd.getD k 0 := by
  simp [xorBytes, List.getD_eq_getElem?_getD, hk, hpd]

theorem getElem_drbgUpdate_key (E : Cipher) (kl : Nat) {pd : List Byte} (d : DrbgState) (hpd : pd.length = 16 + kl)
    {k : Nat} (h : k < 32) (hk : k < kl) :
    (drbgUpdate E kl pd d).key[k] = streamByte E (keyBytes kl d) d.v k ^^^ pd.getD k 0 := by
  simp only [drbgUpdate, take_cipherStream, getElem_arrayOf _ k h]
  rw [← getD_xor_stream _ _ _ hpd (by omega), List.getD_eq_getElem?_getD, List.getElem?_take_of_lt hk]
  rfl

theorem getElem_drbgUpdate_v (E : Cipher) (kl : Nat) {pd : List Byte} (d : DrbgState) (hpd : pd.length = 16 + kl)
    {k : Nat} (h : k < 16) :
    (drbgUpdate E kl pd d).v[k] = streamByte E (keyBytes kl d) d.v (kl + k) ^^^ pd.getD (kl + k) 0 := by
  simp only [drbgUpdate, take_cipherStream, getElem_arrayOf _ k h]
  rw [← getD_xor_stream _ _ _ hpd (by omega), List.getD_eq_getElem?_getD, List.getElem?_drop]
  rfl

/-- Settles O53: for any key length; what lies past it in `KEY` is cleared. -/
theorem updateSplitsStream : Obligations.UpdateSplitsStream := by
  intro E kl pd d _ hpd
  refine ⟨fun k h => ?_, fun k h => getElem_drbgUpdate_v E kl d hpd h⟩
  split_ifs with hk
  · exact getElem_drbgUpdate_key E kl d hpd h hk
  · exact drbgUpdate_unusedKeyZero E kl pd d k (Nat.le_of_not_lt hk) h

/-! ### Instantiate (R147) -/

theorem getElem_arrayOf_zeros {n k : Nat} (h : k < n) : (arrayOf n (zeros n))[k] = 0 :=
  (getElem_arrayOf _ k h).trans (getD_zeros n k)

/-- Settles O54: the seed XORed into zeros is the seed padded with zeros. -/
theorem instantiateIsOneUpdate : Obligations.InstantiateIsOneUpdate := by
  intro E kl p _ hp
  refine ⟨{ key := arrayOf 32 (zeros 32), v := arrayOf 16 (zeros 16) }, fun k => getElem_arrayOf_zeros,
    fun k => getElem_arrayOf_zeros, ?_⟩
  rw [drbgInstantiate, seedMaterial_eq kl p hp]
  rfl

/-! ### Generate (R149, R150, R154) -/

theorem drbgGenerate_fst (E : Cipher) (kl n : Nat) (d : DrbgState) :
    (drbgGenerate E kl n d).1 = (List.range n).map (streamByte E (keyBytes kl d) d.v) :=
  take_cipherStream E _ n d.v

/-- The closing update starts from the value register `ceil(n / 16)` increments on. -/
theorem drbgGenerate_snd (E : Cipher) (kl n : Nat) (d : DrbgState) :
    (drbgGenerate E kl n d).2 =
      drbgUpdate E kl (zeros (seedLenOf kl)) { d with v := incTimes (blocksFor n) d.v } := by
  rw [← cipherStream_snd]
  rfl

/-- Settles O55: the two parts of Generate's result, which PRODUCE takes as it is. -/
theorem generateEmitsStream : Obligations.GenerateEmitsStream := by
  intro E kl n d
  refine ⟨?_, fun m hm => ?_, drbgGenerate_snd E kl n d⟩
  · rw [drbgProduce, drbgGenerate_fst, List.length_map, List.length_range]
  · rw [drbgProduce, drbgGenerate_fst]
    simp [List.getD_eq_getElem?_getD, hm, keyBytes]

/-- After Generate(16) the closing update reads the stream from its second block on, and XORs zeros (R154). -/
theorem getElem_key_drbgGenerate_sixteen (E : Cipher) (d : DrbgState) {k : Nat} (h : k < 32) (hk : k < 16) :
    (drbgGenerate E 16 16 d).2.key[k] = streamByte E (keyBytes 16 d) d.v (16 + k) := by
  have hpd : (zeros (seedLenOf 16)).length = 16 + 16 := length_zeros _
  simp only [drbgGenerate_snd]
  rw [getElem_drbgUpdate_key E 16 _ hpd h hk, getD_zeros, ← streamByte_inc]
  exact BitVec.xor_zero

/-- Settles O56: both requests are prefixes of one stream; the key is its second block. -/
theorem generatePrefixAndOverlap : Obligations.GeneratePrefixAndOverlap := by
  refine ⟨fun E kl n m d h => ?_, fun E d => ?_⟩
  · rw [drbgGenerate_fst, drbgGenerate_fst, ← List.map_take, List.take_range, Nat.min_eq_left h]
  · refine List.ext_getElem (by simp [drbgGenerate_fst]) fun k hk _ => ?_
    have hk : k < 16 := by simpa using hk
    simp [drbgGenerate_fst, getElem_key_drbgGenerate_sixteen E d (show k < 32 by omega) hk]

end Sys2Proof.Machine
end

section
/-! PROOFS. The configuration and seeding commands, each in every state (42_commands_config.md R170 to R175). -/

namespace Sys2Proof.Machine

/-! ### Acceptance of the ordinary commands -/

/-- Performing an ordinary command is its row of the acceptance summary (R225, R227). -/
theorem exec_ordinary (op : BitVec 4) (a : BitVec 28) (s : State)
    (h : op ∈ [0x0#4, 0x1#4, 0x2#4, 0x3#4, 0x4#4, 0x5#4, 0x6#4]) :
    exec (decodeFields op a) s =
      .next (s.withEngine (ordinaryCommand (operandLegal op a) s.engine (executeCommand op a s.engine))) := by
  rw [exec_decodeFields, acceptFields_ordinary op a _ h]

/-- A command's own effect is reached with no error pending only, so an error it raises there is recorded (R243). -/
theorem ordinaryCommand_raise (legal : Bool) (e : Engine) (c : ErrCode) :
    ordinaryCommand legal e (raise c e) = ordinaryCommand legal e { e with err := c } := by
  by_cases he : e.err = .noError
  · rw [raise_of_noError c he]
  · simp only [ordinaryCommand, if_pos he]

/-! ### NOP and SEED_CLEAR -/

/-- NOP by the acceptance steps (R171, R225). -/
theorem exec_nop (a : BitVec 28) (s : State) :
    exec (.nop a) s = .next (s.withEngine (ordinaryCommand (a == 0) s.engine { s.engine with busy := true })) :=
  exec_ordinary 0 a s (by decide)

/-- SEED_CLEAR by the acceptance steps (R173, R225). -/
theorem exec_seedClear (a : BitVec 28) (s : State) :
    exec (.seedClear a) s =
      .next (s.withEngine (ordinaryCommand (a == 0) s.engine { s.engine with slen := 0, busy := true })) :=
  exec_ordinary 2 a s (by decide)

/-- Settles O16: after reset NOP executes, and with nothing pending the engine's turn is `DONE`. -/
theorem nopSetsBusyOnly : Obligations.NopSetsBusyOnly := by
  refine ⟨encodeCommand_decodeFields 0 0, exec_nop, _, exec_nop 0 State.reset, fun depth => ?_⟩
  rw [engineStep_done rfl]
  rfl

/-- Settles O18: its row of the acceptance summary. -/
theorem seedClearEmptiesSeedBuffer : Obligations.SeedClearEmptiesSeedBuffer :=
  ⟨encodeCommand_decodeFields 2 0, exec_seedClear⟩

/-! ### SEED_BYTE -/

/-- SEED_BYTE by the acceptance steps (R174, R225). -/
theorem exec_seedByte (b : Byte) (r : BitVec 20) (s : State) :
    exec (.seedByte b r) s =
      .next (s.withEngine (ordinaryCommand (r == 0) s.engine (seedByteEffect b s.engine))) := by
  have hx : executeCommand 3 (r ++ b) s.engine = seedByteEffect ((r ++ b).extractLsb' 0 8) s.engine := rfl
  have h := exec_ordinary 3 (r ++ b) s (by decide)
  rwa [decodeFields_seedByte, operandLegal_seedByte, hx, low_of_append] at h

theorem seedByteEffect_full (b : Byte) {e : Engine} (h : e.slen = 256) : seedByteEffect b e = raise .seedOvf e :=
  if_pos h

theorem seedByteEffect_room (b : Byte) {e : Engine} (h : e.slen < 256) :
    seedByteEffect b e =
      { e with seedBuf := e.seedBuf.setIfInBounds e.slen b, slen := e.slen + 1, busy := true } :=
  if_neg (Nat.ne_of_lt h)

/-- Settles O19: a full buffer raises, and otherwise exactly the byte at index `SLEN` is written. -/
theorem seedByteAppendsByte : Obligations.SeedByteAppendsByte := by
  refine ⟨assemble_seedByte, fun b r s => ⟨fun h => ?_, fun h => ?_⟩⟩
  · rw [exec_seedByte, seedByteEffect_full b h, ordinaryCommand_raise]
  · refine ⟨s.engine.seedBuf.setIfInBounds s.engine.slen b, fun k hk => ?_, ?_⟩
    · exact (Vector.getElem_setIfInBounds hk).trans (if_congr eq_comm rfl rfl)
    · rw [exec_seedByte, seedByteEffect_room b h]

/-! ### SEED -/

/-- A refused SEED records SEED_LEN (R175, R243). -/
theorem exec_seed_refused (a : BitVec 28) {s : State} (h : seedLengthOk s.engine = false) :
    exec (.seed a) s =
      .next (s.withEngine (ordinaryCommand (a == 0) s.engine { s.engine with err := .seedLen })) := by
  rw [exec_seed, seedEffect, if_neg (by simp [h]), ordinaryCommand_raise]

/-- A SEED of an accepted length seeds the generator and drops all output (R175, R225). -/
theorem exec_seed_seeds (a : BitVec 28) {s : State} (h : seedLengthOk s.engine = true) :
    exec (.seed a) s = .next (s.withEngine (ordinaryCommand (a == 0) s.engine
      { seedGenerator s.engine with seeded := true, fifo := [], pend := [], busy := true })) := by
  rw [exec_seed, seedEffect, if_pos h]

theorem seedLengthOk_legacy {e : Engine} (hv : e.variant.keyLen? = none) (h : 0 < e.slen) : seedLengthOk e = true :=
  (seedLengthOk_iff e).mpr ⟨h, by simp [hv]⟩

theorem seedLengthOk_drbg {e : Engine} {kl : Nat} (hv : e.variant.keyLen? = some kl) (h : 0 < e.slen)
    (hle : e.slen ≤ 16 + kl) : seedLengthOk e = true :=
  (seedLengthOk_iff e).mpr ⟨h, by simpa [hv] using hle⟩

theorem seedLengthOk_empty {e : Engine} (h : e.slen = 0) : seedLengthOk e = false := by
  simp [Bool.eq_false_iff, seedLengthOk_iff, h]

theorem seedLengthOk_tooLong {e : Engine} {kl : Nat} (hv : e.variant.keyLen? = some kl) (h : 16 + kl < e.slen) :
    seedLengthOk e = false := by
  rw [Bool.eq_false_iff, ne_eq, seedLengthOk_iff]
  exact fun ⟨_, hle⟩ => Nat.not_lt.mpr (hle kl hv) h

theorem seedGenerator_legacy {e : Engine} (hv : e.variant = .legacy) :
    seedGenerator e = { e with legacy := rc4Seed (seedBytes e) } := by
  simp only [seedGenerator, hv]

theorem seedGenerator_legacyDrop {e : Engine} (hv : e.variant = .legacyDrop) :
    seedGenerator e = { e with legacy := rc4Discard 3072 (rc4Seed (seedBytes e)) } := by
  simp only [seedGenerator, hv, Config.dropCount]

/-- Each counter DRBG is instantiated with its own key length (R147, R175). -/
theorem seedGenerator_drbg {e : Engine} {kl : Nat} (hv : e.variant.keyLen? = some kl) :
    seedGenerator e = { e with drbg := drbgInstantiate cipher kl (seedBytes e) } := by
  cases hg : e.variant <;> rw [hg] at hv <;> cases hv <;> simp only [seedGenerator, hg]

/-- Settles O20: the two lengths refused, then the three generators. -/
theorem seedSeedsSelectedGenerator : Obligations.SeedSeedsSelectedGenerator := by
  refine fun a s => ⟨fun h => ?_, fun kl hv h => ?_, fun hv h => ?_, fun hv h => ?_, fun kl hv h hle => ?_⟩
  · exact exec_seed_refused a (seedLengthOk_empty h)
  · exact exec_seed_refused a (seedLengthOk_tooLong hv h)
  · rw [exec_seed_seeds a (seedLengthOk_legacy (congrArg Variant.keyLen? hv) h), seedGenerator_legacy hv, seedBytes]
  · rw [exec_seed_seeds a (seedLengthOk_legacy (congrArg Variant.keyLen? hv) h), seedGenerator_legacyDrop hv,
      seedBytes]
  · rw [exec_seed_seeds a (seedLengthOk_drbg hv h hle), seedGenerator_drbg hv, seedBytes]

end Sys2Proof.Machine
end

section
/-! PROOFS. The output commands, the engine's turn and the bus reads and writes, each in every state
(43_commands_output.md R190 to R210). -/

namespace Sys2Proof.Machine

/-! ### PRODUCE -/

/-- An unseeded PRODUCE records NOT_SEEDED (R190, R243). -/
theorem exec_produce_unseeded (n : BitVec 24) (r : BitVec 4) {s : State} (h : s.engine.seeded = false) :
    exec (.produce n r) s =
      .next (s.withEngine (ordinaryCommand (r == 0) s.engine { s.engine with err := .notSeeded })) := by
  rw [exec_produce, produceEffect, if_neg (by simp [h]), ordinaryCommand_raise]

/-- A seeded PRODUCE puts what the selected generator emits in `PEND` and advances it (R190, R225). -/
theorem exec_produce_seeded (n : BitVec 24) (r : BitVec 4) {s : State} (h : s.engine.seeded = true) :
    exec (.produce n r) s = .next (s.withEngine (ordinaryCommand (r == 0) s.engine
      { (generate n.toNat s.engine).2 with pend := (generate n.toNat s.engine).1, busy := true })) := by
  rw [exec_produce, produceEffect, if_pos h]

/-- A counter DRBG emits what `Generate` returns (R150). -/
theorem generate_of_drbg {e : Engine} {kl : Nat} (hv : e.variant.keyLen? = some kl) (n : Nat) :
    generate n e = ((drbgGenerate cipher kl n e.drbg).1, { e with drbg := (drbgGenerate cipher kl n e.drbg).2 }) := by
  simp only [generate, hv, drbgProduce]

/-- A request of no bytes still performs the closing update (R149, D15). -/
theorem drbgGenerate_zero (E : Cipher) (kl : Nat) (d : DrbgState) :
    drbgGenerate E kl 0 d = ([], drbgUpdate E kl (zeros (seedLenOf kl)) d) :=
  Prod.ext rfl (drbgGenerate_snd E kl 0 d)

/-- Settles O21: refused, or what the selected family emits; for no bytes only the DRBG's closing update is left. -/
theorem produceFillsPend : Obligations.ProduceFillsPend := by
  refine fun n r s => ⟨exec_produce_unseeded n r, fun hs hv => ?_, fun kl hs hv => ?_, rfl,
    fun kl => drbgGenerate_zero cipher kl s.engine.drbg⟩
  · rw [exec_produce_seeded n r hs, generate_of_legacy hv]
  · rw [exec_produce_seeded n r hs, generate_of_drbg hv]

/-! ### DISCARD -/

/-- DISCARD by the acceptance steps (R191, R225). -/
theorem exec_discard (a : BitVec 28) (s : State) :
    exec (.discard a) s =
      .next (s.withEngine (ordinaryCommand (a == 0) s.engine { s.engine with fifo := [], busy := true })) :=
  exec_ordinary 6 a s (by decide)

/-- Settles O22: its row of the acceptance summary. -/
theorem discardEmptiesFifo : Obligations.DiscardEmptiesFifo := ⟨encodeCommand_decodeFields 6 0, exec_discard⟩

/-! ### The engine's turn -/

theorem pushEnabled_of_pend_nil (depth : Nat) {e : Engine} (h : e.pend = []) : pushEnabled depth e = false := by
  simp [pushEnabled, h]

theorem doneEnabled_of_idle {e : Engine} (h : e.busy = false) : doneEnabled e = false := by simp [doneEnabled, h]

/-- Settles O34: the turn's frame; a quiescent engine has nothing pending, so neither step is enabled. -/
theorem engineTurnKeepsTheRest : Obligations.EngineTurnKeepsTheRest := by
  refine ⟨fun depth e => ?_, fun depth e hinv hb => ?_⟩
  · rw [engineStep_keeps]
  · have hp : e.pend = [] := hinv.pend_of_idle hb
    exact ⟨pushEnabled_of_pend_nil depth hp, doneEnabled_of_idle hb, engineStep_idle hp hb⟩

/-! ### Reads -/

/-- Settles O25, read by read: each returns its constant whatever the state. -/
theorem constantReads : Obligations.ConstantReads :=
  fun _ => ⟨rfl, rfl, rfl, rfl, rfl, rfl, rfl, rfl, rfl, rfl, rfl⟩

theorem exec_rdStatus (s : State) : exec .rdStatus s = .next (s.returnRead (statusWord s.engine)) := rfl

/-- A field moved up inside a word keeps its number (R33). -/
theorem field_toNat {w k : Nat} (f : BitVec w) (h : w + k ≤ 32) : (f.setWidth 32 <<< k).toNat = f.toNat <<< k := by
  have hlt : f.toNat <<< k < 2 ^ 32 := by
    rw [Nat.shiftLeft_eq]
    calc f.toNat * 2 ^ k < 2 ^ w * 2 ^ k := Nat.mul_lt_mul_of_pos_right f.isLt (Nat.two_pow_pos k)
      _ = 2 ^ (w + k) := (Nat.pow_add 2 w k).symm
      _ ≤ 2 ^ 32 := Nat.pow_le_pow_right (by decide) h
  rw [BitVec.toNat_shiftLeft, BitVec.toNat_setWidth_of_le (by omega), Nat.mod_eq_of_lt hlt]

/-- The fields of `STATUS` do not overlap, so the word is the sum of the shifted fields (R33, R204). -/
theorem statusWord_toNat (e : Engine) :
    (statusWord e).toNat =
      e.err.code.toNat * 2 ^ 8 + e.variant.code.toNat * 2 ^ 2 + e.seeded.toNat * 2 + e.busy.toNat := by
  have hbusy : e.busy.toNat < 2 ^ 1 := e.busy.toNat_lt
  have hseeded : e.seeded.toNat <<< 1 + e.busy.toNat < 2 ^ 2 := by have := e.seeded.toNat_lt; omega
  have hvariant : e.variant.code.toNat <<< 2 + (e.seeded.toNat <<< 1 + e.busy.toNat) < 2 ^ 8 := by omega
  rw [statusWord, BitVec.toNat_or, BitVec.toNat_or, BitVec.toNat_or, field_toNat _ (by decide),
    field_toNat _ (by decide), field_toNat _ (by decide), BitVec.toNat_setWidth_of_le (by decide),
    BitVec.toNat_ofBool, BitVec.toNat_ofBool, Nat.or_assoc, Nat.or_assoc,
    ← Nat.shiftLeft_add_eq_or_of_lt hbusy, ← Nat.shiftLeft_add_eq_or_of_lt hseeded,
    ← Nat.shiftLeft_add_eq_or_of_lt hvariant]
  simp only [Nat.shiftLeft_eq, Nat.add_assoc, Nat.pow_one]

/-- Settles O26: the word's number from its fields, and the two examples by their fields. -/
theorem statusReadsItsFields : Obligations.StatusReadsItsFields := by
  refine ⟨⟨rfl, rfl, rfl, rfl, rfl, rfl, rfl⟩, fun s => ⟨_, exec_rdStatus s, ?_⟩, fun s hv hs hb he => ?_,
    fun s hv hs hb he => ?_⟩
  · simp only [statusWord_toNat, Bool.toNat, Bool.cond_eq_ite]
  · rw [exec_rdStatus, statusWord, hv, hs, hb, he]
    rfl
  · rw [exec_rdStatus, statusWord, hv, hs, hb, he]
    rfl

theorem exec_rdOut (s : State) :
    exec .rdOut s = .next ((s.withEngine (popFifo s.engine).2).returnRead (outWord (popFifo s.engine).1)) := rfl

/-- `RD OUT` with nothing in the FIFO returns 0 and pops nothing (R203). -/
theorem exec_rdOut_empty {s : State} (h : s.engine.fifo = []) : exec .rdOut s = .next (s.returnRead 0) := by
  have hpop : popFifo s.engine = (none, s.engine) := by simp only [popFifo, h]
  rw [exec_rdOut, hpop, State.withEngine_self, outWord]

/-- `RD OUT` pops the FIFO's head and returns it (R203). -/
theorem exec_rdOut_byte {s : State} {b : Byte} {rest : List Byte} (h : s.engine.fifo = b :: rest) :
    exec .rdOut s = .next ((s.withEngine { s.engine with fifo := rest }).returnRead (outWord (some b))) := by
  have hpop : popFifo s.engine = (some b, { s.engine with fifo := rest }) := by simp only [popFifo, h]
  rw [exec_rdOut, hpop]

/-- Bit 8 lies above the byte, so it adds 0x100 (R34). -/
theorem outWord_toNat (b : Byte) : (outWord (some b)).toNat = 0x100 + b.toNat := by
  rw [outWord, BitVec.toNat_or, BitVec.toNat_setWidth_of_le (by decide)]
  exact (Nat.two_pow_add_eq_or_of_lt b.isLt 1).symm

/-- Settles O27: the two cases of the pop. -/
theorem outReadPopsFifo : Obligations.OutReadPopsFifo :=
  fun _ => ⟨exec_rdOut_empty, fun b _ h => ⟨_, outWord_toNat b, exec_rdOut_byte h⟩, exec_rdOut_byte⟩

/-! ### Writes -/

/-- Settles O29, write by write: only CMD's meaning looks at the value. -/
theorem otherWritesHaveNoEffect : Obligations.OtherWritesHaveNoEffect :=
  fun _ _ => ⟨rfl, rfl, rfl, rfl, rfl, rfl, rfl, rfl, rfl, rfl, rfl, rfl, rfl, rfl, rfl, rfl⟩

end Sys2Proof.Machine
end

section
/-! PROOFS. Command acceptance and the control commands, each in every state (44_commands_control.md R220 to R227). -/

namespace Sys2Proof.Machine

/-! ### The steps of acceptance -/

/-- The opcodes of R225 step 1 as numbers. -/
theorem definedOpcode_iff (op : BitVec 4) :
    definedOpcode op = true ↔ op.toNat ∈ [0x0, 0x1, 0x2, 0x3, 0x4, 0x5, 0x6, 0xE, 0xF] := by
  revert op
  decide

/-- `OperandLegal` on the operand's number (R224). -/
theorem operandLegal_iff (op : BitVec 4) (a : BitVec 28) :
    operandLegal op a = true ↔
      if op.toNat = 1 then a.toNat / 2 ^ 3 = 0 ∧ a.toNat % 2 ^ 3 ≤ 4 else if op.toNat = 3 then a.toNat / 2 ^ 8 = 0
      else if op.toNat = 5 then a.toNat / 2 ^ 24 = 0 else a.toNat = 0 := by
  split_ifs with h1 h3 h5
  · obtain rfl : op = 1 := BitVec.eq_of_toNat_eq h1
    rw [operandLegal_select_iff]
    omega
  · obtain rfl : op = 3 := BitVec.eq_of_toNat_eq h3
    rw [operandLegal_seedByte_iff]
    omega
  · obtain rfl : op = 5 := BitVec.eq_of_toNat_eq h5
    rw [operandLegal_produce_iff]
    omega
  · rw [operandLegal_formatZ a (mt (congrArg BitVec.toNat) h1) (mt (congrArg BitVec.toNat) h3)
      (mt (congrArg BitVec.toNat) h5), beq_iff_eq, ← BitVec.toNat_inj]
    rfl

/-- Settles O10, a step at a time: `raise` is the recording rule, and step 6 is reached with no error pending only. -/
theorem acceptCmdFollowsItsSteps : Obligations.AcceptCmdFollowsItsSteps := by
  intro w s
  rw [← opcodeField_toNat, ← operandField_toNat]
  have hoperand := operandLegal_iff (opcodeField w) (operandField w)
  have hnumber (n : BitVec 4) : opcodeField w = n ↔ (opcodeField w).toNat = n.toNat := BitVec.toNat_inj.symm
  refine congrArg (fun e => Host.Outcome.next (s.withEngine e)) ?_
  refine if_congr ?_ (raise_eq_recordError _ _) ?_
  · rw [Bool.not_eq_true', ← Bool.not_eq_true, definedOpcode_iff]
  refine if_congr ?_ (raise_eq_recordError _ _) ?_
  · rw [Bool.not_eq_true', ← Bool.not_eq_true, hoperand]
  refine if_congr (hnumber 0xF) rfl ?_
  refine if_congr (hnumber 0xE) rfl ?_
  refine ite_congr rfl (fun _ => rfl) fun herr => ?_
  exact if_congr Iff.rfl (raise_of_noError _ (not_not.mp herr)) rfl

/-! ### Ordinary commands while BUSY -/

/-- The ordinary commands are the ones with the opcodes 0 to 6 (R96). -/
theorem fields_of_isOrdinary {i : Instr} (h : isOrdinary i = true) :
    ∃ op a, i = decodeFields op a ∧ op ∈ [0x0#4, 0x1#4, 0x2#4, 0x3#4, 0x4#4, 0x5#4, 0x6#4] := by
  cases i with
  | nop a => exact ⟨0, a, rfl, by decide⟩
  | select v r => exact ⟨1, r ++ v, (decodeFields_select v r).symm, by decide⟩
  | seedClear a => exact ⟨2, a, rfl, by decide⟩
  | seedByte b r => exact ⟨3, r ++ b, (decodeFields_seedByte b r).symm, by decide⟩
  | seed a => exact ⟨4, a, rfl, by decide⟩
  | produce n r => exact ⟨5, r ++ n, (decodeFields_produce n r).symm, by decide⟩
  | discard a => exact ⟨6, a, rfl, by decide⟩
  | _ => cases h

theorem definedOpcode_of_ordinary {op : BitVec 4} (h : op ∈ [0x0#4, 0x1#4, 0x2#4, 0x3#4, 0x4#4, 0x5#4, 0x6#4]) :
    definedOpcode op = true := by
  revert op
  decide

/-- An ordinary command is its row of the acceptance summary, whatever its own effect is (R225, R227). -/
theorem exec_of_isOrdinary {i : Instr} (s : State) (h : isOrdinary (commandOf i) = true) :
    ∃ done, exec i s = .next (s.withEngine (ordinaryCommand (commandOf i).wellFormed s.engine done)) := by
  obtain ⟨op, a, hi, hop⟩ := fields_of_isOrdinary h
  rw [← exec_commandOf, hi, exec_ordinary op a s hop, wellFormed_decodeFields, definedOpcode_of_ordinary hop,
    Bool.not_true, Bool.false_or]
  exact ⟨_, rfl⟩

/-- Settles O14: the acceptance summary's row, with a legal operand, no error pending and `BUSY` = 1. -/
theorem busyCommandIsRefused : Obligations.BusyCommandIsRefused := by
  refine ⟨rfl, fun i s hord hwf herr hbusy => ?_⟩
  obtain ⟨done, hexec⟩ := exec_of_isOrdinary s hord
  rw [hexec, hwf]
  simp [ordinaryCommand, herr, hbusy]

/-! ### CLEAR_ERR and SOFT_RESET -/

/-- A command of format Z that acceptance performs in whatever state it finds is its row of the summary: only its
operand can stop it (R225, R227). -/
theorem exec_control {op : BitVec 4} {s : State} {done : Engine} (a : BitVec 28) (hop : definedOpcode op = true)
    (hz : operandLegal op a = (a == 0)) (hdone : acceptFields op 0 s.engine = done) :
    exec (decodeFields op a) s = .next (s.withEngine (controlCommand (a == 0) s.engine done)) := by
  rw [exec_decodeFields, ← hz]
  cases hl : operandLegal op a
  case false =>
    rw [acceptFields_illegalOperand _ hop hl]
    rfl
  case true =>
    obtain rfl := operand_zero hz hl
    rw [hdone]
    rfl

/-- CLEAR_ERR by the acceptance steps (R220, R225). -/
theorem exec_clearErr (a : BitVec 28) (s : State) :
    exec (.clearErr a) s =
      .next (s.withEngine (controlCommand (a == 0) s.engine { s.engine with err := .noError })) :=
  exec_control (op := 0xE) a rfl rfl rfl

/-- SOFT_RESET with any operand, by the acceptance steps (R221, R225). -/
theorem exec_softReset_operand (a : BitVec 28) (s : State) :
    exec (.softReset a) s =
      .next (s.withEngine (controlCommand (a == 0) s.engine { Engine.reset with busy := true })) :=
  exec_control (op := 0xF) a rfl rfl rfl

/-- Clearing the error clears the bits of `STATUS` above the low byte and keeps the others (R33, R220). -/
theorem statusWord_noError (e : Engine) :
    (statusWord { e with err := .noError }).toNat = (statusWord e).toNat % 2 ^ 8 := by
  have hcode : ErrCode.noError.code.toNat = 0 := rfl
  have hvariant := e.variant.code_le
  have hseeded := e.seeded.toNat_lt
  have hbusy := e.busy.toNat_lt
  simp only [statusWord_toNat, hcode]
  omega

/-- Settles O23: its row of the acceptance summary, and 0x408 without the bits above its low byte is 8. -/
theorem clearErrClearsError : Obligations.ClearErrClearsError := by
  refine ⟨encodeCommand_decodeFields 0xE 0, exec_clearErr, fun s h => ?_⟩
  have hexec : exec (.wrCmd 0xE0000000) s = .next (s.withEngine { s.engine with err := .noError }) :=
    (wrCmdRunsDecodedCommand 0xE0000000 s).trans (exec_clearErr 0 s)
  refine ⟨_, hexec, BitVec.eq_of_toNat_eq ?_⟩
  rw [State.withEngine_engine, statusWord_noError, h]
  rfl

/-- Settles O24: its row of the acceptance summary; with nothing pending the engine's turn is `DONE`. -/
theorem softResetReturnsToReset : Obligations.SoftResetReturnsToReset := by
  refine ⟨encodeCommand_decodeFields 0xF 0, exec_softReset_operand, reset_values true, rfl, fun depth => ?_⟩
  rw [engineStep_done rfl]
  rfl

end Sys2Proof.Machine
end

section
/-! PROOFS. The recording of errors: who changes `ERR`, what an error leaves unchanged, and what a pending error stops
(60_exceptions.md R243 to R245). -/

namespace Sys2Proof.Machine

/-! ### While an error is pending -/

/-- With an error pending a command is ignored, whatever its opcode and operand, unless it is CLEAR_ERR or SOFT_RESET
(R245): it has a later error, which is not recorded, or stops at acceptance's step 5. -/
theorem acceptFields_of_error {op : BitVec 4} {a : BitVec 28} {e : Engine} (he : e.err ≠ .noError)
    (hclear : decodeFields op a ≠ .clearErr 0) (hreset : decodeFields op a ≠ .softReset 0) :
    acceptFields op a e = e := by
  rcases acceptFields_effects op a e with ⟨c, hq⟩ | ⟨hi, _⟩ | ⟨hi, _⟩ | ⟨_, hq⟩ | ⟨hnone, _⟩
  · rw [hq, raise_of_error c he]
  · exact absurd hi hreset
  · exact absurd hi hclear
  · exact hq
  · exact absurd hnone he

theorem exec_of_error {i : Instr} {s : State} {op : BitVec 4} {a : BitVec 28} (he : s.engine.err ≠ .noError)
    (hi : commandOf i = decodeFields op a) (hclear : commandOf i ≠ .clearErr 0) (hreset : commandOf i ≠ .softReset 0) :
    exec i s = .next s := by
  rw [hi] at hclear hreset
  rw [← exec_commandOf, hi, exec_decodeFields, acceptFields_of_error he hclear hreset, State.withEngine_self]

/-- Settles O15: an ordinary command, and a word that is no control word, are commands that the pending error stops;
the pop does not look at `ERR`. -/
theorem pendingErrorStopsCommands : Obligations.PendingErrorStopsCommands := by
  refine fun s he => ⟨fun i hord => ?_, fun w => exec_of_error (i := .wrCmd w) he rfl, fun b rest => exec_rdOut_byte⟩
  obtain ⟨op, a, hi, _⟩ := fields_of_isOrdinary hord
  refine exec_of_error he hi (fun h => ?_) (fun h => ?_) <;> simp [h, isOrdinary] at hord

/-! ### Who changes ERR -/

/-- An ordinary command that executes and raises nothing keeps `ERR` (R226). -/
theorem OrdinaryEffect.err {i : Instr} {e e' : Engine} (h : OrdinaryEffect i e e') : e'.err = e.err := by
  rcases h with ⟨_, rfl⟩ | ⟨_, _, rfl⟩ | ⟨_, rfl⟩ | ⟨_, _, _, rfl⟩ | ⟨_, _, rfl⟩ | ⟨_, _, _, rfl⟩ | ⟨_, rfl⟩
  · rfl
  · rfl
  · rfl
  · rfl
  · rw [seedGenerator_keeps]
  · rw [generate_keeps]
  · rfl

/-- A raise that changes `ERR` finds no error pending, and records its code (R243). -/
theorem raise_changes_err {c : ErrCode} {e : Engine} (h : (raise c e).err ≠ e.err) :
    e.err = .noError ∧ c ≠ .noError ∧ raise c e = { e with err := c } := by
  have he : e.err = .noError := by
    by_contra he
    exact h (congrArg Engine.err (raise_of_error c he))
  rw [raise_of_noError c he] at h ⊢
  exact ⟨he, he ▸ h, rfl⟩

/-- `e'` is `e` with its first error recorded, and nothing else changed (R243, R244). -/
def RecordsFirstError (e e' : Engine) : Prop :=
  e.err = .noError ∧ ∃ c, c ≠ .noError ∧ e' = { e with err := c }

/-- Accepting a word changes `ERR` by recording the first error, or clears it (R225, R243). -/
theorem acceptFields_changes_err {op : BitVec 4} {a : BitVec 28} {e : Engine} (h : (acceptFields op a e).err ≠ e.err) :
    RecordsFirstError e (acceptFields op a e) ∨
    ((acceptFields op a e).err = .noError ∧ (decodeFields op a = .clearErr 0 ∨ decodeFields op a = .softReset 0)) := by
  rcases acceptFields_effects op a e with ⟨c, hq⟩ | ⟨hi, hq⟩ | ⟨hi, hq⟩ | ⟨_, hq⟩ | ⟨_, _, hx⟩
  · rw [hq] at h ⊢
    obtain ⟨he, hc, hraise⟩ := raise_changes_err h
    exact .inl ⟨he, c, hc, hraise⟩
  · exact .inr ⟨congrArg Engine.err hq, .inr hi⟩
  · exact .inr ⟨congrArg Engine.err hq, .inl hi⟩
  · exact absurd (congrArg Engine.err hq) h
  · exact absurd hx.err h

/-- An instruction changes `ERR` by recording the first error and doing nothing else, or clears it (R243, R244). -/
theorem exec_changes_err {i : Instr} {s t : State} (h : exec i s = .next t) (hne : t.engine.err ≠ s.engine.err) :
    (RecordsFirstError s.engine t.engine ∧ t = s.withEngine t.engine) ∨
    (t.engine.err = .noError ∧ (commandOf i = .clearErr 0 ∨ commandOf i = .softReset 0 ∨ i = .reset)) := by
  rcases exec_effects i s t h with ⟨op, a, hc, rfl⟩ | ⟨hi, rfl⟩ | ⟨_, rfl⟩ | ⟨⟨v, rfl⟩, _⟩ | ⟨rfl, _⟩
  · rw [hc]
    rcases acceptFields_changes_err hne with hrec | ⟨hnone, hi⟩
    · exact .inl ⟨hrec, rfl⟩
    · exact .inr ⟨hnone, hi.imp_right .inl⟩
  · exact .inr ⟨rfl, .inr (.inr hi)⟩
  · rw [State.returnRead_engine, State.withEngine_engine, popFifo_keeps] at hne
    exact absurd rfl hne
  · exact absurd rfl hne
  · exact absurd rfl hne

/-- Settles O39: `raise` is the recording rule, the engine's turn writes no `ERR`, and an instruction that changes `ERR`
records the first error or clears it. -/
theorem errHoldsFirstError : Obligations.ErrHoldsFirstError := by
  refine ⟨raise_eq_recordError, fun depth e => ?_, fun i s t h hne => ?_⟩
  · rw [engineStep_keeps]
  · refine (exec_changes_err h hne).imp_left ?_
    rintro ⟨⟨he, c, hc, hq⟩, _⟩
    rw [hq]
    exact ⟨he, hc⟩

/-- Settles O40: an instruction that leaves an error code it did not find has not cleared `ERR`, so it has recorded the
code and done nothing else. -/
theorem errorsArePrecise : Obligations.ErrorsArePrecise := by
  intro i s t h hne hcode
  rcases exec_changes_err h hne with ⟨⟨_, c, _, hq⟩, ht⟩ | ⟨hnone, _⟩
  · rw [ht, hq]
    rfl
  · exact absurd hnone hcode

end Sys2Proof.Machine
end

section
/-! PROOFS. SOFT_RESET beside RESET (70_reset_and_hazards.md R272). -/

namespace Sys2Proof.Machine

/-- Settles O3: the engine both leave is `Engine.reset`. With nothing pending the engine's turn is `DONE`, which puts
`BUSY` back to its reset value. -/
theorem softResetIsResetButBusy : Obligations.SoftResetIsResetButBusy := by
  intro s
  refine ⟨Engine.reset, exec_reset s, exec_softReset s, rfl, fun depth => ?_⟩
  rw [engineStep_done rfl]
  rfl

end Sys2Proof.Machine
end
